-- ==== Sys2Proof/Word.lean ====
section
/-! DEFINITION. The bit-vector types of the engine: a 32-bit register word, an 8-bit channel byte, a 15-bit
window, a 4-bit nibble (00_scope.md R5, R7; every quantity is an unsigned bit field). -/

namespace Sys2Proof

/-- A 32-bit register word (R5). -/
abbrev Word := BitVec 32

/-- One colour channel, 8 bits (R5: "each channel in [0,255]"). -/
abbrev Byte := BitVec 8

/-- A window of 15 bits; position `p` is bit `15 - p` (R18). -/
abbrev Window := BitVec 15

/-- A 4-bit value: a nibble, a syndrome or a flip index (R19, R20). -/
abbrev Nibble := BitVec 4

end Sys2Proof
end

