-- ==== Sys2Proof/Config.lean ====
section
/-! DEFINITION. The parameters of 00_scope.md §3: the fixed ones (R5) and the ones a model takes as arguments (R6).
`ENGINE_BASE` is the field `base` of an instance (Machine/Platform.lean). The spec leaves no value free
(93_implementation_defined.md: no behaviour is `any value`), so nothing here is opaque. -/

namespace Sys2Proof

/-- `N = 15`, the window length (R5). -/
abbrev Config.windowLength : Nat := 15

/-- `K = 4`, the syndrome length (R5). -/
abbrev Config.syndromeLength : Nat := 4

/-- One pixel, "an RGB integer triple" (R102). -/
structure Pixel where
  r : Byte
  g : Byte
  b : Byte
  deriving DecidableEq, Repr

/-- The all-zero pixel (R110: "an all-zero (black) pixel"). -/
def Pixel.black : Pixel := ⟨0, 0, 0⟩

/-- `ROW_BOUND` (R6, R107): whether the block at `row = height - 4` is walked. -/
inductive RowBound where
  | inclusive
  | exclusive
  deriving DecidableEq, Repr

/-- The open parameters that bind the host (R6), with the spec's defaults. -/
structure HostParams where
  rowBound   : RowBound := .inclusive
  background : Pixel    := Pixel.black
  deriving DecidableEq, Repr

end Sys2Proof
end

