-- ==== Sys2Proof/Syntax.lean ====
section
/-! DEFINITION. The engine's commands: one constructor per row of spec/opcode_table.json. No command has an operand
field: every operand is a fixed engine register (30_encoding.md R49, R53). -/

namespace Sys2Proof

/-- The ten commands of 30_encoding.md R50. -/
inductive Instr where
  | nop      -- R77
  | gather   -- R72
  | synd     -- R62
  | decode   -- R63
  | correct  -- R65
  | scatter  -- R74
  | recover  -- R76
  | embed    -- R67
  | extract  -- R69
  | clear    -- R78
  deriving DecidableEq, Repr

end Sys2Proof
end

