-- ==== Sys2Proof/WellFormed.lean ====
section
/-! DEFINITION. What a well-formed command is, and the form of a command word. A command carries no operand (R53),
so every term of `Instr` is well-formed; what can be ill-formed is the 32-bit word (R51, R52). The check of a bus
access (R37) is `accessWellFormed` in Machine/Ops.lean and the check of a pixel grid (R102) is `Grid.wf` in
Machine/BlockWalk.lean, beside the operations that use them. -/

namespace Sys2Proof

/-- R53: "No command has an immediate or a register operand field", so no constructor has a field to check. -/
def Instr.wellFormed : Instr → Bool
  | .nop => true
  | .gather => true
  | .synd => true
  | .decode => true
  | .correct => true
  | .scatter => true
  | .recover => true
  | .embed => true
  | .extract => true
  | .clear => true

/-- The reserved field `RSV = v[31:4]` of format C is 0 (R49: "reserved, must be 0"). -/
def reservedBitsZero (v : Word) : Bool := v.extractLsb' 4 28 == 0

/-- The field `OP = v[3:0]` is not one of the reserved opcodes 0x9 to 0xE (R52). -/
def opcodeAssigned (v : Word) : Bool :=
  !(decide (0x9 ≤ (v.extractLsb' 0 4).toNat) && decide ((v.extractLsb' 0 4).toNat ≤ 0xE))

/-- The words `CMD` accepts (R51, R52): both fields in form. -/
def commandWordWellFormed (v : Word) : Bool := reservedBitsZero v && opcodeAssigned v

end Sys2Proof
end

