-- ==== Sys2Proof/Decode.lean ====
section
/-! DEFINITION. From a 32-bit `CMD` word to a command and back (30_encoding.md R49 to R54). Total: every word is
either a command or rejected by name. -/

namespace Sys2Proof

/-- Why a word is no command. Both raise `ILLEGAL_CMD` (R83). -/
inductive DecodeError where
  /-- bits [31:4] are not all 0 (R51) -/
  | reservedBits
  /-- `OP` in 0x9 to 0xE (R52) -/
  | reservedOpcode
  deriving DecidableEq, Repr

/-- The decoder of R49's `Execute(v)`: the reserved bits first, then `OP = v[3:0]`. -/
def decode (v : Word) : Except DecodeError Instr :=
  if v.extractLsb' 4 28 ≠ 0 then .error .reservedBits
  else
    match (v.extractLsb' 0 4).toNat with
    | 0x0 => .ok .nop
    | 0x1 => .ok .gather
    | 0x2 => .ok .synd
    | 0x3 => .ok .decode
    | 0x4 => .ok .correct
    | 0x5 => .ok .scatter
    | 0x6 => .ok .recover
    | 0x7 => .ok .embed
    | 0x8 => .ok .extract
    | 0xF => .ok .clear
    | _   => .error .reservedOpcode

/-- The command word of each command, R50's column "word". -/
def encode : Instr → Word
  | .nop     => 0x00000000
  | .gather  => 0x00000001
  | .synd    => 0x00000002
  | .decode  => 0x00000003
  | .correct => 0x00000004
  | .scatter => 0x00000005
  | .recover => 0x00000006
  | .embed   => 0x00000007
  | .extract => 0x00000008
  | .clear   => 0x0000000F

/-- The word an opcode-table row's bits stand for: the low `nbits` bits of `w`, every higher bit 0 (log entry 4). -/
def tableWord (nbits w : Nat) : Word := BitVec.ofNat 32 (w % 2 ^ nbits)

/-- The command this decoder reads from an instruction whose bits are `w`. A command is one word (R54), so the bits
are those of the word itself, bit 0 least significant (R7). -/
def decodeTableWord (nbits w : Nat) : Option Instr :=
  match decode (tableWord nbits w) with
  | .ok i => some i
  | .error _ => none

/-- R50's opcode map as rows: mnemonic, command. The match of a row is `encode`, its mask 0xFFFFFFFF. -/
def opcodeRows : List (String × Instr) :=
  [("NOP", .nop), ("GATHER", .gather), ("SYND", .synd), ("DECODE", .decode), ("CORRECT", .correct),
   ("SCATTER", .scatter), ("RECOVER", .recover), ("EMBED", .embed), ("EXTRACT", .extract), ("CLEAR", .clear)]

/-- A row of R50 matches a word when the word under the mask 0xFFFFFFFF is the row's word. -/
def rowMatches (row : String × Instr) (v : Word) : Bool := (v &&& 0xFFFFFFFF#32) == encode row.2

end Sys2Proof
end

