-- ==== Sys2Proof/Machine/State.lean ====
section
/-! DEFINITION. The state of one engine instance (10_state.md R13 to R33) with the host's side of its bus, the reasons
a step can stop, and the state after reset (70_reset_and_hazards.md R93). -/

namespace Sys2Proof.Machine

/-- The reasons a step stops with a fault: none. "The engine has no traps" (R80) and "The engine never stops on its
own: it has no halt state" (R101); an error is recorded in STATUS and the machine goes on (log entry 2). -/
inductive Fault where
  deriving DecidableEq, Repr

/-- The reasons a step is refused. -/
inductive Refusal where
  /-- an arm of `exec` whose command has no meaning yet; raised by no arm of this model (safe: a stop) -/
  | notModelled (mnemonic : String)
  deriving DecidableEq, Repr

/-- The recorded errors of R81. -/
inductive ErrorCode where
  /-- code 1: a `CMD` word with bits [31:4] ≠ 0 or `OP` in 0x9 to 0xE (R83) -/
  | illegalCmd
  /-- code 2: an access that is not performed (R84) -/
  | badAccess
  deriving DecidableEq, Repr

/-- The ten registers of the window (10_state.md §2). -/
inductive Reg where
  | id | status | cmd | cover | secret | win | syn | idx | out | recov
  deriving DecidableEq, Repr

/-- What can reach an engine instance from outside (R12, R37, R93): a host access of some width in bits at some byte
offset from `ENGINE_BASE`, or the reset input. A narrow access carries a word too; its data is never examined (R85). -/
inductive Input where
  | read  (width off : Nat)
  | write (width off : Nat) (v : Word)
  | reset
  deriving DecidableEq, Repr

/-- One engine instance: the 110 bits of R30, and the host's side of its bus (R13: "a model of a program keeps the
host's position in its access list as host state"; log entry 1). -/
structure State where
  /-- `COVER`, four cover channel bytes (R17) -/
  cover   : Word
  /-- `SECRET`, one secret channel byte (R21) -/
  secret  : Byte
  /-- `WIN`, one window (R18) -/
  win     : Window
  /-- `SYN`, a syndrome (R19) -/
  syn     : Nibble
  /-- `IDX`, a flip index (R20) -/
  idx     : Nibble
  /-- `OUT`, four assembled output channel bytes (R22) -/
  out     : Word
  /-- `RECOV`, a recovered channel byte (R23) -/
  recov   : Byte
  /-- `STATUS.ERR` (R25) -/
  err     : Bool
  /-- `STATUS.FLIP` (R26) -/
  flip    : Bool
  /-- `STATUS.VALID` (R27) -/
  valid   : Bool
  /-- `STATUS.ERRCODE` (R28) -/
  errcode : Nibble
  /-- host side: the inputs not yet performed, oldest first -/
  pending  : List Input
  /-- host side: the values the performed reads returned, newest first -/
  returned : List Word
  deriving DecidableEq, Repr

/-- The state after reset (R93): every register 0; nothing issued, nothing returned (log entry 3). -/
def State.reset : State :=
  { cover := 0, secret := 0, win := 0, syn := 0, idx := 0, out := 0, recov := 0,
    err := false, flip := false, valid := false, errcode := 0,
    pending := [], returned := [] }

end Sys2Proof.Machine
end

