-- ==== Sys2Proof/Machine/Operands.lean ====
section
/-! DEFINITION. The pure functions the commands are built from: window positions, the parity matrix and its product
(41_gf2_engine.md §1, §2), the bit-layout contract (43_bitfield.md §1), the single-bit corrector and the codec
(42_window_codec.md §1). Field `v[hi:lo]` of R7 is `v.extractLsb' lo (hi - lo + 1)`; `a : b` is `a ++ b`. -/

namespace Sys2Proof.Machine

/-! ### Windows and index vectors -/

/-- `pos(w, p) = w[15 − p]` for `1 ≤ p ≤ 15` (R8, R18). -/
def pos (w : Window) (p : Nat) : Bool := w.getLsbD (Config.windowLength - p)

/-- The bits of a value, most significant first: the vector `(b1, ..., bn)` of R60. -/
def msbFirst {n : Nat} (v : BitVec n) : List Bool := (List.range n).map (fun i => v.getLsbD (n - 1 - i))

/-- R60: "concatenates the bit vector (MSB first) into a binary string and parses it as an unsigned integer". -/
def bitsToIndex (bs : List Bool) : Nat := bs.foldl (fun acc b => 2 * acc + b.toNat) 0

/-- R61: true when `1 ≤ i ≤ length`. -/
def indexIsValid (i length : Nat) : Bool := decide (1 ≤ i) && decide (i ≤ length)

/-- `bitsToIndex` of a 4-component vector, held in a 4-bit register (R60, R63). -/
def syndromeIndex (d : Nibble) : Nibble := BitVec.ofNat 4 (bitsToIndex (msbFirst d))

/-! ### The parity matrix and its product -/

/-- R57: `H[r][k] = (k >> (4 − r)) & 1` for rows 1 to 4 and columns 1 to 15. -/
def parityMatrix (r k : Nat) : Bool := (k >>> (Config.syndromeLength - r)).testBit 0

/-- The sum over GF(2) of `f 1, ..., f n` (R9: an exclusive OR of the terms). -/
def xorOver : Nat → (Nat → Bool) → Bool
  | 0, _ => false
  | n + 1, f => xor (xorOver n f) (f (n + 1))

/-- One component of the product: the dot product over GF(2) of row `r` of a matrix with a window (R58). -/
def dotRow (H : Nat → Nat → Bool) (r : Nat) (w : Window) : Bool :=
  xorOver Config.windowLength (fun p => H r p && pos w p)

/-- R58 for any 4×15 matrix: `s1 : s2 : s3 : s4`, `s1` is bit 3. -/
def multiplyWith (H : Nat → Nat → Bool) (w : Window) : Nibble :=
  BitVec.ofBool (dotRow H 1 w) ++ BitVec.ofBool (dotRow H 2 w) ++ BitVec.ofBool (dotRow H 3 w)
    ++ BitVec.ofBool (dotRow H 4 w)

/-- R58: the engine's product, by the hard-wired matrix. -/
def multiply (w : Window) : Nibble := multiplyWith parityMatrix w

/-- R63's hardware reading: compare `d` with each of the 15 columns of H and encode the matching one, 0 when none. -/
def columnMatch (d : Nibble) : Nibble :=
  (List.range' 1 Config.windowLength).foldl
    (fun acc k =>
      if msbFirst d = [parityMatrix 1 k, parityMatrix 2 k, parityMatrix 3 k, parityMatrix 4 k]
      then acc ||| BitVec.ofNat 4 k else acc) 0

/-! ### Byte lanes -/

/-- Byte lane `i` of a register, bits `[8i+7:8i]` (R17, R41). -/
def lane (v : Word) (i : Nat) : Byte := v.extractLsb' (8 * i) 8

/-- Four channel bytes, pixel₁ in lane 0 to pixel₄ in lane 3 (R17, R111). -/
def packLanes (b1 b2 b3 b4 : Byte) : Word := b4 ++ b3 ++ b2 ++ b1

/-! ### Bit-layout contract -/

/-- R71: `c[2:0] : c[11:8] : c[19:16] : c[27:24]`. -/
def gather (c : Word) : Window :=
  c.extractLsb' 0 3 ++ c.extractLsb' 8 4 ++ c.extractLsb' 16 4 ++ c.extractLsb' 24 4

/-- R73: each lane keeps its high bits and receives its window positions. -/
def scatter (c : Word) (w : Window) : Word :=
  c.extractLsb' 28 4 ++ w.extractLsb' 0 4
    ++ (c.extractLsb' 20 4 ++ w.extractLsb' 4 4)
    ++ (c.extractLsb' 12 4 ++ w.extractLsb' 8 4)
    ++ (c.extractLsb' 3 5 ++ w.extractLsb' 12 3)

/-- R75: `nibble(x) = x[7:4]`. -/
def nibble (x : Byte) : Nibble := x.extractLsb' 4 4

/-- R75: `reconstruct(s) = s : 0b0000`. -/
def reconstruct (s : Nibble) : Byte := s ++ 0#4

/-! ### The corrector and the codec -/

/-- R64: flip position `i`, which is bit `15 − i`, when the index is valid; otherwise leave the window. -/
def flipAt (w : Window) (i : Nibble) : Window :=
  if indexIsValid i.toNat Config.windowLength then w ^^^ (1#15 <<< (Config.windowLength - i.toNat)) else w

/-- R64's hardware reading: the 4-to-15 one-hot decoder of `i`, all zeros for `i = 0`. -/
def oneHot (i : Nibble) : Window := BitVec.ofNat 15 (2 ^ (Config.windowLength - i.toNat))

/-- Steps 1 to 3 of R66: the flip index for a window and a nibble. -/
def embedIndex (w : Window) (n : Nibble) : Nibble := syndromeIndex (n ^^^ multiply w)

/-- R66: the corrected window. -/
def embedNibble (w : Window) (n : Nibble) : Window := flipAt w (embedIndex w n)

/-- R68: `extractNibble(w) = multiply(w)`. -/
def extractNibble (w : Window) : Nibble := multiply w

end Sys2Proof.Machine
end

