-- ==== Sys2Proof/Machine/Flags.lean ====
section
/-! DEFINITION. The STATUS word and its flags (10_state.md R15, R25 to R29). -/

namespace Sys2Proof.Machine

/-- What `VALID` and `FLIP` record of an index: `indexIsValid(i, 15)` (R26, R27). -/
def indexFlag (i : Nibble) : Bool := indexIsValid i.toNat Config.windowLength

/-- The code an error is recorded under (R81). -/
def ErrorCode.code : ErrorCode → Nibble
  | .illegalCmd => 1
  | .badAccess => 2

/-- R15: `zext_32(ERRCODE : 0b0 : VALID : FLIP : ERR)`; bit 3 and bits [31:8] read 0 (R29). -/
def statusWord (s : State) : Word :=
  (s.errcode ++ 0#1 ++ BitVec.ofBool s.valid ++ BitVec.ofBool s.flip ++ BitVec.ofBool s.err).setWidth 32

/-- `STATUS.FLIP <- b` (R26). -/
def setFlip (b : Bool) (s : State) : State := { s with flip := b }

/-- `STATUS.VALID <- b` (R27). -/
def setValid (b : Bool) (s : State) : State := { s with valid := b }

end Sys2Proof.Machine
end

