-- ==== Sys2Proof/Machine/Ops.lean ====
section
/-! DEFINITION. The named operations over registers: writes of one register, recording an error and clearing the record
(60_exceptions.md R82, R86), reset (R93), the register map and the access check (20_memory.md R35, R37), reading a
register (R38). -/

namespace Sys2Proof.Machine

/-! ### Register writes -/

/-- `COVER <- v` -/
def setCover (v : Word) (s : State) : State := { s with cover := v }

/-- `SECRET <- v` -/
def setSecret (v : Byte) (s : State) : State := { s with secret := v }

/-- `WIN <- v` -/
def setWin (v : Window) (s : State) : State := { s with win := v }

/-- `SYN <- v` -/
def setSyn (v : Nibble) (s : State) : State := { s with syn := v }

/-- `IDX <- v` -/
def setIdx (v : Nibble) (s : State) : State := { s with idx := v }

/-- `OUT <- v` -/
def setOut (v : Word) (s : State) : State := { s with out := v }

/-- `RECOV <- v` -/
def setRecov (v : Byte) (s : State) : State := { s with recov := v }

/-- The value of a read is given to the host (R38, R10). -/
def giveHost (v : Word) (s : State) : State := { s with returned := v :: s.returned }

/-! ### Errors and reset -/

/-- R82, `raise Error(code)`: the engine's whole exception entry. The first error since the last clear is kept;
nothing is saved and control does not move (R80). -/
def raiseError (e : ErrorCode) (s : State) : State :=
  if s.err then s else { s with err := true, errcode := e.code }

/-- R86: `ERR <- 0` and `ERRCODE <- 0`, "the engine's only analogue of a return from trap". -/
def clearError (s : State) : State := { s with err := false, errcode := 0 }

/-- R93: every register to its reset value; the host's own data is not the engine's to reset (log entry 3). -/
def resetEngine (s : State) : State :=
  { State.reset with pending := s.pending, returned := s.returned }

/-! ### The register map -/

/-- `ID` always reads this word (R14). -/
def idWord : Word := 0x53594E01

/-- The byte offset of each register from `ENGINE_BASE` (10_state.md §2). -/
def Reg.offset : Reg → Nat
  | .id => 0x00
  | .status => 0x04
  | .cmd => 0x08
  | .cover => 0x0C
  | .secret => 0x10
  | .win => 0x14
  | .syn => 0x18
  | .idx => 0x1C
  | .out => 0x20
  | .recov => 0x24

/-- The registers in the order of their offsets. -/
def Reg.inOrder : List Reg :=
  [.id, .status, .cmd, .cover, .secret, .win, .syn, .idx, .out, .recov]

/-- R37: a well-formed access is 32 bits wide, at a multiple of 4 not above 0x3C. -/
def accessWellFormed (width off : Nat) : Bool :=
  decide (width = 32) && decide (off % 4 = 0) && decide (off ≤ 0x3C)

/-- R35: offsets 0x28 to 0x3C are reserved. -/
def reservedOffset (off : Nat) : Bool := decide (0x28 ≤ off) && decide (off ≤ 0x3C)

/-- The register an access reaches, if it is performed at all: the access check of R37 and R85 comes first. -/
def accessedReg (width off : Nat) : Option Reg :=
  if accessWellFormed width off && !reservedOffset off then Reg.inOrder.find? (fun r => r.offset == off) else none

/-- R38: the value a read of a register returns. -/
def readReg (r : Reg) (s : State) : Word :=
  match r with
  | .id => idWord
  | .status => statusWord s
  | .cmd => 0x00000000
  | .cover => s.cover
  | .secret => s.secret.setWidth 32
  | .win => s.win.setWidth 32
  | .syn => s.syn.setWidth 32
  | .idx => s.idx.setWidth 32
  | .out => s.out
  | .recov => s.recov.setWidth 32

/-- `BusRead(off)` (R38, R40): the value and the state after. A read that is not performed returns 0 and raises
`BAD_ACCESS`; no other read changes state. -/
def busRead (width off : Nat) (s : State) : Word × State :=
  match accessedReg width off with
  | some r => (readReg r s, s)
  | none => (0x00000000, raiseError .badAccess s)

end Sys2Proof.Machine
end

