-- ==== Sys2Proof/Machine/BitField.lean ====
section
/-! DEFINITION. The bit-field extractor and assembler: GATHER, SCATTER, RECOVER (43_bitfield.md §2). -/

namespace Sys2Proof.Machine

/-- R72 `GATHER`: `WIN <- gather(COVER)`. -/
def execGather (s : State) : Host.Outcome State Fault Refusal := .next (setWin (gather s.cover) s)

/-- R74 `SCATTER`: `OUT <- scatter(COVER, WIN)`. -/
def execScatter (s : State) : Host.Outcome State Fault Refusal := .next (setOut (scatter s.cover s.win) s)

/-- R76 `RECOVER`: `RECOV <- reconstruct(SYN)`. -/
def execRecover (s : State) : Host.Outcome State Fault Refusal := .next (setRecov (reconstruct s.syn) s)

end Sys2Proof.Machine
end

