-- ==== Sys2Proof/Machine/Control.lean ====
section
/-! DEFINITION. The control commands NOP and CLEAR (44_control.md). -/

namespace Sys2Proof.Machine

/-- R77 `NOP`: no effect. -/
def execNop (s : State) : Host.Outcome State Fault Refusal := .next s

/-- R78 `CLEAR`: every data register, `FLIP` and `VALID` to 0; `ERR` and `ERRCODE` are unchanged. -/
def execClear (s : State) : Host.Outcome State Fault Refusal :=
  .next <| setValid false <| setFlip false <|
    setRecov 0 <| setOut 0 <| setIdx 0 <| setSyn 0 <| setWin 0 <| setSecret 0 <| setCover 0 s

end Sys2Proof.Machine
end

