-- ==== Sys2Proof/Machine/Gf2Engine.lean ====
section
/-! DEFINITION. The GF(2) matrix engine: SYND, DECODE (41_gf2_engine.md §3). -/

namespace Sys2Proof.Machine

/-- R62 `SYND`: `SYN <- multiply(WIN)`. -/
def execSynd (s : State) : Host.Outcome State Fault Refusal := .next (setSyn (multiply s.win) s)

/-- R63 `DECODE`: `d <- SECRET[7:4] XOR SYN`; `IDX <- bitsToIndex(d)`; `VALID <- indexIsValid(IDX, 15)`. -/
def execDecode (s : State) : Host.Outcome State Fault Refusal :=
  let i := syndromeIndex (nibble s.secret ^^^ s.syn)
  .next (setValid (indexFlag i) (setIdx i s))

end Sys2Proof.Machine
end

