-- ==== Sys2Proof/Machine/WindowCodec.lean ====
section
/-! DEFINITION. The window codec: CORRECT, EMBED, EXTRACT (42_window_codec.md §2). -/

namespace Sys2Proof.Machine

/-- R65 `CORRECT`: `FLIP <- indexIsValid(IDX, 15)`; `WIN <- flip(WIN, IDX)`. -/
def execCorrect (s : State) : Host.Outcome State Fault Refusal :=
  .next (setWin (flipAt s.win s.idx) (setFlip (indexFlag s.idx) s))

/-- R67 `EMBED`: all writes from the values before the command. `SYN` is the syndrome before correction. -/
def execEmbed (s : State) : Host.Outcome State Fault Refusal :=
  let w := gather s.cover
  let i := embedIndex w (nibble s.secret)
  let w2 := flipAt w i
  .next <| setOut (scatter s.cover w2) <| setFlip (indexFlag i) <| setValid (indexFlag i) <|
    setIdx i <| setSyn (multiply w) <| setWin w2 s

/-- R69 `EXTRACT`: `WIN`, `SYN` and `RECOV` from `COVER`; the other registers and flags are unchanged. -/
def execExtract (s : State) : Host.Outcome State Fault Refusal :=
  let w := gather s.cover
  let n := extractNibble w
  .next <| setRecov (reconstruct n) <| setSyn n <| setWin w s

end Sys2Proof.Machine
end

