-- ==== Sys2Proof/Machine/Dispatch.lean ====
section
/-! DEFINITION. One arm per command of 30_encoding.md R50, each a direct call of its meaning. -/

namespace Sys2Proof.Machine

/-- The effect of a decoded command (R49's `Execute`, after decoding). -/
def exec (i : Instr) (s : State) : Host.Outcome State Fault Refusal :=
  match i with
  | .nop => Sys2Proof.Machine.execNop s
  | .gather => Sys2Proof.Machine.execGather s
  | .synd => Sys2Proof.Machine.execSynd s
  | .decode => Sys2Proof.Machine.execDecode s
  | .correct => Sys2Proof.Machine.execCorrect s
  | .scatter => Sys2Proof.Machine.execScatter s
  | .recover => Sys2Proof.Machine.execRecover s
  | .embed => Sys2Proof.Machine.execEmbed s
  | .extract => Sys2Proof.Machine.execExtract s
  | .clear => Sys2Proof.Machine.execClear s

end Sys2Proof.Machine
end

