-- ==== Sys2Proof/Machine/Bus.lean ====
section
/-! DEFINITION. The engine's side of the bus: executing a `CMD` word (30_encoding.md R49), `BusWrite` (20_memory.md
R39), and performing one input completely (R44). -/

namespace Sys2Proof.Machine

/-- R49 `Execute(v)`: the command the word encodes, or `ILLEGAL_CMD` and no other effect (R51, R52, R83). -/
def execute (v : Word) (s : State) : Host.Outcome State Fault Refusal :=
  match decode v with
  | .ok i => exec i s
  | .error _ => .next (raiseError .illegalCmd s)

/-- R39: a write of a register. Bits of `v` above a register's width are ignored. -/
def writeReg (r : Reg) (v : Word) (s : State) : Host.Outcome State Fault Refusal :=
  match r with
  | .id => .next (raiseError .badAccess s)
  | .status => .next (if v.getLsbD 0 then clearError s else s)
  | .cmd => execute v s
  | .cover => .next (setCover v s)
  | .secret => .next (setSecret (v.extractLsb' 0 8) s)
  | .win => .next (setWin (v.extractLsb' 0 15) s)
  | .syn => .next (setSyn (v.extractLsb' 0 4) s)
  | .idx => .next (setIdx (v.extractLsb' 0 4) s)
  | .out => .next (raiseError .badAccess s)
  | .recov => .next (raiseError .badAccess s)

/-- `BusWrite(off, v)` (R39, R40): an access that is not performed raises `BAD_ACCESS` before its data is examined
(R85). -/
def busWrite (width off : Nat) (v : Word) (s : State) : Host.Outcome State Fault Refusal :=
  match accessedReg width off with
  | some r => writeReg r v s
  | none => .next (raiseError .badAccess s)

/-- One input, performed completely (R44). A read gives its value to the host. -/
def perform (i : Input) (s : State) : Host.Outcome State Fault Refusal :=
  match i with
  | .read width off => .next (giveHost (busRead width off s).1 (busRead width off s).2)
  | .write width off v => busWrite width off v s
  | .reset => .next (resetEngine s)

/-- The next input taken off the host's list and performed; an engine no access reaches stays as it is (R101; log
entry 2). -/
def performNext (s : State) : Host.Outcome State Fault Refusal :=
  match s.pending with
  | [] => .next s
  | i :: rest => perform i { s with pending := rest }

/-- A list of inputs performed in order (R44: "the sequential composition of the rules of each access"). -/
def performAll : List Input → State → Host.Outcome State Fault Refusal
  | [], s => .next s
  | i :: rest, s =>
    match perform i s with
    | .next s' => performAll rest s'
    | .fault r => .fault r
    | .refused r => .refused r

/-- The host issues one more input: it arrives after those already issued (R44, R48). -/
def arrive (i : Input) (s : State) : State := { s with pending := s.pending ++ [i] }

/-- A command comes to the engine as a 32-bit write of `CMD` (R16); put first, it is the next input performed. -/
def commandFirst (v : Word) (s : State) : State :=
  { s with pending := .write 32 Reg.cmd.offset v :: s.pending }

end Sys2Proof.Machine
end

