-- ==== Sys2Proof/Machine/Step.lean ====
section
/-! DEFINITION. One step of the machine: the engine performs one input (R100: "A model treats each host access as one
atomic step of the engine"). -/

namespace Sys2Proof.Machine

/-- One step. -/
def step (s : State) : Host.Outcome State Fault Refusal := performNext s

/-- The state in which the next step runs the command whose bits are `w`: the engine fetches nothing (R46), so the
next access in the host's list is the write of that word to `CMD` (log entry 4). -/
def State.withFetchWord (s : State) (nbits w : Nat) : State := commandFirst (tableWord nbits w) s

end Sys2Proof.Machine
end

