-- ==== Sys2Proof/Machine/Script.lean ====
section
/-! DEFINITION. Host programs as statements and the bus accesses they stand for (30_encoding.md R55, R56). -/

namespace Sys2Proof.Machine

/-- A host write of a named register: a 32-bit write at its offset. -/
def wr (r : Reg) (v : Word) : Input := .write 32 r.offset v

/-- A host read of a named register. -/
def rd (r : Reg) : Input := .read 32 r.offset

/-- R55: `cmd MNEMONIC` is `wr CMD, word(MNEMONIC)`. -/
def cmd (i : Instr) : Input := wr .cmd (encode i)

/-- R56: `embed.seq`, as its five commands. -/
def embedSeq : List Instr := [.gather, .synd, .decode, .correct, .scatter]

/-- R56: `extract.seq`, as its three commands. -/
def extractSeq : List Instr := [.gather, .synd, .recover]

/-- One statement of the assembly language (R55) or pseudo-instruction (R56). -/
inductive Stmt where
  | wr (r : Reg) (v : Word)
  | rd (r : Reg)
  | wrAt (off : Nat) (v : Word)
  | rdAt (off : Nat)
  | cmd (i : Instr)
  | cmdWord (v : Word)
  | clrerr
  | embedSeq
  | extractSeq
  | window (c s : Word)
  deriving DecidableEq, Repr

/-- The accesses a statement stands for (R55 "meaning", R56 "expansion"). -/
def Stmt.accesses : Stmt → List Input
  | .wr r v => [Machine.wr r v]
  | .rd r => [Machine.rd r]
  | .wrAt off v => [.write 32 off v]
  | .rdAt off => [.read 32 off]
  | .cmd i => [Machine.cmd i]
  | .cmdWord v => [Machine.wr .cmd v]
  | .clrerr => [Machine.wr .status 0x1]
  | .embedSeq => Machine.embedSeq.map Machine.cmd
  | .extractSeq => Machine.extractSeq.map Machine.cmd
  | .window c s => [Machine.wr .cover c, Machine.wr .secret s]

/-- The access list of a program: its statements in order. -/
def programAccesses (p : List Stmt) : List Input := p.flatMap Stmt.accesses

/-- A program loaded from outside: its accesses become the host's access list (log entry 3). -/
def loadProgram (p : List Stmt) (s : State) : State := { s with pending := programAccesses p }

end Sys2Proof.Machine
end

