-- ==== Sys2Proof/Machine/BlockWalk.lean ====
section
/-! DEFINITION. The host protocol of 80_host_interface.md: grids, the block walk, the secret cursor, `merge` and
`unmerge`, each block and channel driven through the engine's own bus accesses. These rules bind the host, not the
engine (R3). -/

namespace Sys2Proof.Machine

/-! ### Grids (R102) -/

/-- A pixel grid: width, height and its pixels row by row. -/
structure Grid where
  width  : Nat
  height : Nat
  pixels : List Pixel
  deriving DecidableEq, Repr

/-- A grid holds one pixel for every `(x, y)` with `x < width`, `y < height`. -/
def Grid.wf (g : Grid) : Bool := g.pixels.length == g.width * g.height

/-- The coordinate is inside the grid. -/
def Grid.inside (g : Grid) (x y : Nat) : Bool := decide (x < g.width) && decide (y < g.height)

/-- `get(x, y)`, defined for a coordinate inside the grid (outside: log entry 7). -/
def Grid.get (g : Grid) (x y : Nat) : Pixel :=
  if g.inside x y then g.pixels.getD (y * g.width + x) Pixel.black else Pixel.black

/-- `set(x, y, rgb)`, one pixel of an output grid (outside: log entry 7). -/
def Grid.set (g : Grid) (x y : Nat) (p : Pixel) : Grid :=
  if g.inside x y then { g with pixels := g.pixels.set (y * g.width + x) p } else g

/-- A grid of one colour. -/
def Grid.blank (w h : Nat) (p : Pixel) : Grid := { width := w, height := h, pixels := List.replicate (w * h) p }

/-- The colour channels (R103), in the host's order. -/
inductive Channel where
  | r | g | b
  deriving DecidableEq, Repr

/-- One channel of a pixel. -/
def channelOf (c : Channel) (p : Pixel) : Byte :=
  match c with
  | .r => p.r
  | .g => p.g
  | .b => p.b

/-! ### The walk (R106 to R109) -/

/-- R107: whether block `k` of a column of the given height is walked: `4k ≤ height − 4` or `4k < height − 4`. -/
def rowAdmits (b : RowBound) (height k : Nat) : Bool :=
  match b with
  | .inclusive => decide (4 * k + 4 ≤ height)
  | .exclusive => decide (4 * k + 4 < height)

/-- R107 `BLOCKS(height)`: `floor(height / 4)`, and one fewer under the exclusive bound when `height mod 4 = 0`. -/
def blocksPerColumn (b : RowBound) (height : Nat) : Nat :=
  match b with
  | .inclusive => height / 4
  | .exclusive => if height % 4 = 0 then height / 4 - 1 else height / 4

/-- R108: the blocks `(x, k)` in the order of the walk: columns outside, blocks of a column inside. -/
def walkOrder (b : RowBound) (width height : Nat) : List (Nat × Nat) :=
  (List.range width).flatMap (fun x => (List.range (blocksPerColumn b height)).map (fun k => (x, k)))

/-- R109: the secret coordinate `(sx, sy)` of block `k` of cover column `x`. -/
def secretCursor (x k : Nat) : Nat × Nat := (k, x)

/-- R110: the secret pixel at the cursor, black outside the secret. -/
def secretPixel (S : Grid) (x k : Nat) : Pixel :=
  let c := secretCursor x k
  if S.inside c.1 c.2 then S.get c.1 c.2 else Pixel.black

/-- R106, R111: the four channel bytes of block `k` of column `x`, pixel₁ topmost and in lane 0. -/
def blockWord (g : Grid) (x k : Nat) (c : Channel) : Word :=
  packLanes (channelOf c (g.get x (4 * k))) (channelOf c (g.get x (4 * k + 1)))
    (channelOf c (g.get x (4 * k + 2))) (channelOf c (g.get x (4 * k + 3)))

/-! ### One block through the engine -/

/-- One host action after another, stopping where the engine stops. -/
def andThen {α β : Type} (o : Host.Outcome α Fault Refusal) (f : α → Host.Outcome β Fault Refusal) :
    Host.Outcome β Fault Refusal :=
  match o with
  | .next a => f a
  | .fault r => .fault r
  | .refused r => .refused r

/-- A 32-bit write of a register by the host. -/
def hostWrite (r : Reg) (v : Word) (s : State) : Host.Outcome State Fault Refusal := busWrite 32 r.offset v s

/-- A 32-bit read of a register by the host. -/
def hostRead (r : Reg) (s : State) : Host.Outcome (Word × State) Fault Refusal := .next (busRead 32 r.offset s)

/-- R111 `embed_block` for one channel: `COVER`, `SECRET`, `cmd EMBED`, `OUT`. -/
def embedBlock (cover : Word) (secretByte : Byte) (s : State) : Host.Outcome (Word × State) Fault Refusal :=
  andThen (hostWrite .cover cover s) fun s1 =>
  andThen (hostWrite .secret (secretByte.setWidth 32) s1) fun s2 =>
  andThen (hostWrite .cmd (encode .embed) s2) fun s3 =>
  hostRead .out s3

/-- R114 `extract_block` for one channel: `COVER`, `cmd EXTRACT`, `RECOV`. -/
def extractBlock (cover : Word) (s : State) : Host.Outcome (Word × State) Fault Refusal :=
  andThen (hostWrite .cover cover s) fun s1 =>
  andThen (hostWrite .cmd (encode .extract) s1) fun s2 =>
  hostRead .recov s2

/-- R118: `embed_block` with `embed.seq` in place of `cmd EMBED` (the host "may use `embed.seq` instead"). -/
def embedBlockSeq (cover : Word) (secretByte : Byte) (s : State) : Host.Outcome (Word × State) Fault Refusal :=
  andThen (performAll (wr .cover cover :: wr .secret (secretByte.setWidth 32) :: embedSeq.map cmd) s) fun s' =>
  hostRead .out s'

/-- R118: `extract_block` with `extract.seq` in place of `cmd EXTRACT`. -/
def extractBlockSeq (cover : Word) (s : State) : Host.Outcome (Word × State) Fault Refusal :=
  andThen (performAll (wr .cover cover :: extractSeq.map cmd) s) fun s' =>
  hostRead .recov s'

/-- R112: the four output pixels of a block, from the words the three channels returned. -/
def writeBack (o : Grid) (x k : Nat) (vr vg vb : Word) : Grid :=
  (List.range 4).foldl (fun g j => g.set x (4 * k + j) ⟨lane vr j, lane vg j, lane vb j⟩) o

/-- One block of `merge`: the channels in the order R, G, B (R103), then the write-back. -/
def mergeBlock (C S : Grid) (x k : Nat) (o : Grid) (s : State) : Host.Outcome (Grid × State) Fault Refusal :=
  andThen (embedBlock (blockWord C x k .r) (channelOf .r (secretPixel S x k)) s) fun vr =>
  andThen (embedBlock (blockWord C x k .g) (channelOf .g (secretPixel S x k)) vr.2) fun vg =>
  andThen (embedBlock (blockWord C x k .b) (channelOf .b (secretPixel S x k)) vg.2) fun vb =>
  .next (writeBack o x k vr.1 vg.1 vb.1, vb.2)

/-- The blocks of `merge` in order. -/
def mergeWalk (C S : Grid) : List (Nat × Nat) → Grid → State → Host.Outcome (Grid × State) Fault Refusal
  | [], o, s => .next (o, s)
  | b :: bs, o, s => andThen (mergeBlock C S b.1 b.2 o s) fun r => mergeWalk C S bs r.1 r.2

/-- The host's own error (R104); it is no engine error code. -/
inductive HostError where
  | dimensionError
  deriving DecidableEq, Repr

/-- `merge(cover C, secret S)` on one engine instance (R104 to R112): the dimension check first, before any engine
access; otherwise the stego grid and the engine after the walk. -/
def merge (params : HostParams) (C S : Grid) (s : State) :
    Except HostError (Host.Outcome (Grid × State) Fault Refusal) :=
  if S.width ≤ C.width ∧ S.height ≤ C.height then
    .ok (mergeWalk C S (walkOrder params.rowBound C.width C.height) C s)
  else .error .dimensionError

/-- R116: the recovered pixel goes to the cursor position of the output grid, when that lies inside it. -/
def placeRecovered (u : Grid) (x k : Nat) (p : Pixel) : Grid :=
  let c := secretCursor x k
  if u.inside c.1 c.2 then u.set c.1 c.2 p else u

/-- One block of `unmerge` (R114): a recovered byte per channel, bits [7:0] of `RECOV` (R23). -/
def unmergeBlock (T : Grid) (x k : Nat) (u : Grid) (s : State) : Host.Outcome (Grid × State) Fault Refusal :=
  andThen (extractBlock (blockWord T x k .r) s) fun vr =>
  andThen (extractBlock (blockWord T x k .g) vr.2) fun vg =>
  andThen (extractBlock (blockWord T x k .b) vg.2) fun vb =>
  .next (placeRecovered u x k ⟨lane vr.1 0, lane vg.1 0, lane vb.1 0⟩, vb.2)

/-- The blocks of `unmerge` in order. -/
def unmergeWalk (T : Grid) : List (Nat × Nat) → Grid → State → Host.Outcome (Grid × State) Fault Refusal
  | [], u, s => .next (u, s)
  | b :: bs, u, s => andThen (unmergeBlock T b.1 b.2 u s) fun r => unmergeWalk T bs r.1 r.2

/-- `unmerge(stego T)` on one engine instance (R113 to R116): the recovered grid and the engine after the walk. -/
def unmerge (params : HostParams) (T : Grid) (s : State) : Host.Outcome (Grid × State) Fault Refusal :=
  unmergeWalk T (walkOrder params.rowBound T.width T.height) (Grid.blank T.width T.height params.background) s

end Sys2Proof.Machine
end

