-- ==== Sys2Proof/Machine/Platform.lean ====
section
/-! DEFINITION. Several engine instances on one platform (60_exceptions.md R91; 20_memory.md R36, R41, R48). Each
instance has its own base address and its own copy of the whole state; an access is routed by its platform address.
Which instance performs its next access is the platform's choice (R44), so a step names the instance. -/

namespace Sys2Proof.Machine

/-- One instance: `ENGINE_BASE` (R36) and the engine's state. -/
structure EngineInst where
  base   : Nat
  engine : State
  deriving DecidableEq, Repr

/-- The instances of a platform. -/
structure Platform where
  insts : List EngineInst
  deriving DecidableEq, Repr

/-- R36: "`ENGINE_BASE` is a multiple of 64"; R91: each instance "at its own `ENGINE_BASE`". -/
def Platform.wf (p : Platform) : Bool :=
  p.insts.all (fun i => i.base % 64 == 0) && decide ((p.insts.map (·.base)).Pairwise (· ≠ ·))

/-- The address lies in the instance's 64-byte window (R35, R36). -/
def EngineInst.owns (i : EngineInst) (addr : Nat) : Bool := decide (i.base ≤ addr) && decide (addr < i.base + 64)

/-- An access by a host of the platform: a width in bits and a platform address. -/
inductive BusRequest where
  | read  (width addr : Nat)
  | write (width addr : Nat) (v : Word)
  deriving DecidableEq, Repr

/-- The platform address of a request. -/
def BusRequest.addr : BusRequest → Nat
  | .read _ a => a
  | .write _ a _ => a

/-- The request as the instance at `base` sees it: the offset from its base (R36). -/
def BusRequest.toInput (base : Nat) : BusRequest → Input
  | .read w a => .read w (a - base)
  | .write w a v => .write w (a - base) v

/-- Routing to the first instance whose window holds the address; `none` when no window does (log entry 6). -/
def routeIn (q : BusRequest) : List EngineInst → Option (List EngineInst)
  | [] => none
  | i :: rest =>
    if i.owns q.addr then some ({ i with engine := arrive (q.toInput i.base) i.engine } :: rest)
    else (routeIn q rest).map (i :: ·)

/-- A host issues a request: it arrives at the instance that owns the address, behind that instance's earlier ones. -/
def Platform.issue (q : BusRequest) (p : Platform) : Option Platform :=
  (routeIn q p.insts).map Platform.mk

/-- The platform asserts the reset input of instance `k` (R93: "a reset input of the engine, asserted by the
platform"). -/
def Platform.resetInst (k : Nat) (p : Platform) : Platform :=
  match p.insts[k]? with
  | none => p
  | some i => ⟨p.insts.set k { i with engine := resetEngine i.engine }⟩

/-- Instance `k` performs its next access; every other instance is left as it is (R91). -/
def Platform.stepInst (k : Nat) (p : Platform) : Host.Outcome Platform Fault Refusal :=
  match p.insts[k]? with
  | none => .next p
  | some i =>
    match step i.engine with
    | .next e => .next ⟨p.insts.set k { i with engine := e }⟩
    | .fault r => .fault r
    | .refused r => .refused r

/-- R41: a register as four bytes at increasing addresses, byte lane `j` at `ENGINE_BASE + off + j`. -/
def byteView (i : EngineInst) (r : Reg) : List Host.Cell :=
  (List.range 4).map (fun j => (i.base + r.offset + j, lane (readReg r i.engine) j))

end Sys2Proof.Machine
end

