-- ==== Sys2Proof/Machine/ParallelWalk.lean ====
section
/-! DEFINITION. The block walk spread over several engine instances (80_host_interface.md R118, row "parallel blocks";
60_exceptions.md R91; 20_memory.md R48). The blocks are dealt out to streams, each stream names the instance it drives,
and a schedule says which stream takes the next turn. A turn is one bus access of that stream, issued at a platform
address and performed by a step of the instance, so the accesses of different streams interleave in any order. A
stream's cursor is the `(x, k)` of its block (R109), whatever the order. -/

namespace Sys2Proof.Machine

/-! ### What a stream does with one block -/

/-- The walk the streams share: `merge` of a cover and a secret, or `unmerge` of a stego grid. -/
inductive WalkJob where
  | merge (C S : Grid)
  | unmerge (T : Grid)
  deriving DecidableEq, Repr

/-- A 32-bit write of a register, at its offset. -/
def writeRequest (r : Reg) (v : Word) : BusRequest := .write 32 r.offset v

/-- A 32-bit read of a register, at its offset. -/
def readRequest (r : Reg) : BusRequest := .read 32 r.offset

/-- The accesses of one channel of a block: R111 `embed_block`, R114 `extract_block`. -/
def WalkJob.channelRequests (job : WalkJob) (x k : Nat) (c : Channel) : List BusRequest :=
  match job with
  | .merge C S =>
    [writeRequest .cover (blockWord C x k c), writeRequest .secret ((channelOf c (secretPixel S x k)).setWidth 32),
     writeRequest .cmd (encode .embed), readRequest .out]
  | .unmerge T =>
    [writeRequest .cover (blockWord T x k c), writeRequest .cmd (encode .extract), readRequest .recov]

/-- The accesses of one block: the channels in the order R, G, B (R103). -/
def WalkJob.blockRequests (job : WalkJob) (b : Nat × Nat) : List BusRequest :=
  job.channelRequests b.1 b.2 .r ++ job.channelRequests b.1 b.2 .g ++ job.channelRequests b.1 b.2 .b

/-- The accesses of the block a stream works on, which is the first of its blocks. -/
def WalkJob.nextRequests (job : WalkJob) : List (Nat × Nat) → List BusRequest
  | [] => []
  | b :: _ => job.blockRequests b

/-- What the values of a block's three channels put into the output grid (R112, R116). -/
def WalkJob.putBlock (job : WalkJob) (b : Nat × Nat) (vr vg vb : Word) (o : Grid) : Grid :=
  match job with
  | .merge _ _ => writeBack o b.1 b.2 vr vg vb
  | .unmerge _ => placeRecovered o b.1 b.2 ⟨lane vr 0, lane vg 0, lane vb 0⟩

/-! ### Streams on a platform -/

/-- One block stream: the instance it drives, its blocks not yet finished, and the accesses left of the first one. -/
structure BlockStream where
  inst   : Nat
  blocks : List (Nat × Nat)
  todo   : List BusRequest
  deriving DecidableEq, Repr

/-- A walk in progress: the engines, the output grid, the streams. -/
structure ParallelWalk where
  platform : Platform
  output   : Grid
  streams  : List BlockStream
  deriving DecidableEq, Repr

/-- Instance numbers and the blocks dealt to each. -/
abbrev BlockDeal := List (Nat × List (Nat × Nat))

/-- The streams of a deal, none of whose accesses has been issued. -/
def startStreams (job : WalkJob) (deal : BlockDeal) : List BlockStream :=
  deal.map (fun d => { inst := d.1, blocks := d.2, todo := job.nextRequests d.2 })

/-- A request at an offset, as the request at the platform address `base + offset` (R36). -/
def BusRequest.atBase (base : Nat) : BusRequest → BusRequest
  | .read w off => .read w (base + off)
  | .write w off v => .write w (base + off) v

/-- One access to instance `k`: the request is issued at the instance's address and the instance performs its next
access (R43: an access is atomic). -/
def Platform.accessInst (k : Nat) (q : BusRequest) (p : Platform) : Host.Outcome Platform Fault Refusal :=
  match p.insts[k]? with
  | none => .next p
  | some i =>
    match p.issue (q.atBase i.base) with
    | none => .next p
    | some p' => p'.stepInst k

/-- The values of the last three reads of instance `k`, oldest first: a block's R, G and B. -/
def Platform.lastThree (k : Nat) (p : Platform) : Option (Word × Word × Word) :=
  match p.insts[k]? with
  | none => none
  | some i =>
    match i.engine.returned with
    | vb :: vg :: vr :: _ => some (vr, vg, vb)
    | _ => none

/-- A stream whose block has no access left writes the block back (R112: after all three channels) and goes on to its
next block. -/
def finishBlock (job : WalkJob) (n : Nat) (st : BlockStream) (w : ParallelWalk) : ParallelWalk :=
  match st.blocks with
  | [] => w
  | b :: bs =>
    match w.platform.lastThree st.inst with
    | none => w
    | some v =>
      { w with
        output := job.putBlock b v.1 v.2.1 v.2.2 w.output
        streams := w.streams.set n { st with blocks := bs, todo := job.nextRequests bs } }

/-- One turn of stream `n`: its next access, or the write-back of its block. -/
def takeTurn (job : WalkJob) (n : Nat) (w : ParallelWalk) : Host.Outcome ParallelWalk Fault Refusal :=
  match w.streams[n]? with
  | none => .next w
  | some st =>
    match st.todo with
    | q :: rest =>
      andThen (w.platform.accessInst st.inst q) fun p =>
        .next { w with platform := p, streams := w.streams.set n { st with todo := rest } }
    | [] => .next (finishBlock job n st w)

/-- The turns of a schedule in order. -/
def takeTurns (job : WalkJob) : List Nat → ParallelWalk → Host.Outcome ParallelWalk Fault Refusal
  | [], w => .next w
  | n :: ns, w => andThen (takeTurn job n w) (takeTurns job ns)

/-- Every stream has written back all its blocks. -/
def ParallelWalk.finished (w : ParallelWalk) : Bool := w.streams.all (fun st => st.blocks.isEmpty)

/-- The host's duty of R118 and R48 for a deal: each stream has an instance of its own, which exists and has no other
access pending, and every block of the walk is dealt exactly once. -/
def dealKeepsDuty (b : RowBound) (width height : Nat) (p : Platform) (deal : BlockDeal) : Bool :=
  decide ((deal.map Prod.fst).Pairwise (· ≠ ·))
    && deal.all (fun d => match p.insts[d.1]? with
      | none => false
      | some i => i.engine.pending.isEmpty)
    && (deal.flatMap Prod.snd).isPerm (walkOrder b width height)

/-- `merge` by parallel streams (R118): the dimension check of R104 first, then the turns of the schedule. -/
def mergeParallel (C S : Grid) (p : Platform) (deal : BlockDeal) (schedule : List Nat) :
    Except HostError (Host.Outcome ParallelWalk Fault Refusal) :=
  if S.width ≤ C.width ∧ S.height ≤ C.height then
    .ok (takeTurns (.merge C S) schedule ⟨p, C, startStreams (.merge C S) deal⟩)
  else .error .dimensionError

/-- `unmerge` by parallel streams (R118). -/
def unmergeParallel (params : HostParams) (T : Grid) (p : Platform) (deal : BlockDeal) (schedule : List Nat) :
    Host.Outcome ParallelWalk Fault Refusal :=
  takeTurns (.unmerge T) schedule
    ⟨p, Grid.blank T.width T.height params.background, startStreams (.unmerge T) deal⟩

end Sys2Proof.Machine
end

