-- ==== Sys2Proof/Safety.lean ====
section
/-! DEFINITION. The terms claims about runs use: which inputs raise or clear an error (60_exceptions.md R83, R84, R86),
which command an input executes, and the invariant of the registers. They are written from those rules, not from the
machine's own functions, so that a claim compares the two. -/

namespace Sys2Proof.Machine

/-- The access is not performed: not well-formed (R37), or at a reserved offset (R35). -/
def accessRefused (width off : Nat) : Prop :=
  width ≠ 32 ∨ off % 4 ≠ 0 ∨ 0x3C < off ∨ (0x28 ≤ off ∧ off ≤ 0x3C)

/-- R84: the inputs that raise `BAD_ACCESS`. -/
def Input.isBadAccess : Input → Prop
  | .read width off => accessRefused width off
  | .write width off _ => accessRefused width off ∨ off = 0x00 ∨ off = 0x20 ∨ off = 0x24
  | .reset => False

/-- R83: the inputs that raise `ILLEGAL_CMD`: a well-formed write of 0x08 whose word has bits [31:4] ≠ 0 or `OP` in
0x9 to 0xE. -/
def Input.isIllegalCmd : Input → Prop
  | .write width off v =>
    width = 32 ∧ off = 0x08 ∧ (16 ≤ v.toNat ∨ (0x9 ≤ v.toNat % 16 ∧ v.toNat % 16 ≤ 0xE))
  | _ => False

/-- R86: the inputs that clear the error record: reset, and a well-formed write of `STATUS` with bit 0 = 1. -/
def Input.clearsErrors : Input → Prop
  | .write width off v => width = 32 ∧ off = 0x04 ∧ v.getLsbD 0 = true
  | .read _ _ => False
  | .reset => True

/-- The input is a write of `CMD` with the word of command `i` (R49, R50). -/
def Input.runs (i : Instr) (x : Input) : Prop := x = .write 32 0x08 (encode i)

/-- The input is a host write of the register at `off` (R39). -/
def Input.writesOffset (off : Nat) (x : Input) : Prop := ∃ v, x = .write 32 off v

/-- The same registers and data flags, whatever the error record and the host's side hold. -/
def State.sameData (s t : State) : Prop :=
  s.cover = t.cover ∧ s.secret = t.secret ∧ s.win = t.win ∧ s.syn = t.syn ∧ s.idx = t.idx ∧ s.out = t.out ∧
  s.recov = t.recov ∧ s.flip = t.flip ∧ s.valid = t.valid

/-- The invariant of the registers: `ERRCODE` is 0 exactly when `ERR` is 0 and is never above 2 (R28, R81), and
`RECOV[3:0]` is 0 (R23: only `RECOVER`, `EXTRACT` and `CLEAR` write it). -/
def State.Inv (s : State) : Prop :=
  (s.errcode = 0 ↔ s.err = false) ∧ s.errcode.toNat ≤ 2 ∧ s.recov.extractLsb' 0 4 = 0#4

end Sys2Proof.Machine
end

