-- ==== Sys2Proof/Certificates/Slice0/Obligations.lean ====
section
/-! DEFINITION. The statements about the engine, the host protocol and the platform. Each names the rules of spec/ it
formalises; a clause that is the spec's own inference (marked [derived] there) or the model's choice says so. -/

open Sys2Proof Sys2Proof.Machine

/-! ### Command words -/

/-- R50: the words of the opcode map, one of each family. -/
def Obligations.FamilyWordsDecode : Prop :=
  decode 0b00000000000000000000000000000000#32 = .ok .nop ∧
  decode 0b00000000000000000000000000000010#32 = .ok .synd ∧
  decode 0b00000000000000000000000000000111#32 = .ok .embed ∧
  decode 0b00000000000000000000000000000101#32 = .ok .scatter ∧
  decode 0b00000000000000000000000000001111#32 = .ok .clear

/-- R50: each command is exactly one word, matched whole. -/
def Obligations.EachCommandIsOneWord : Prop :=
  ∀ v : Word,
    (decode v = .ok .nop ↔ v = 0x00000000#32) ∧ (decode v = .ok .gather ↔ v = 0x00000001#32) ∧
    (decode v = .ok .synd ↔ v = 0x00000002#32) ∧ (decode v = .ok .decode ↔ v = 0x00000003#32) ∧
    (decode v = .ok .correct ↔ v = 0x00000004#32) ∧ (decode v = .ok .scatter ↔ v = 0x00000005#32) ∧
    (decode v = .ok .recover ↔ v = 0x00000006#32) ∧ (decode v = .ok .embed ↔ v = 0x00000007#32) ∧
    (decode v = .ok .extract ↔ v = 0x00000008#32) ∧ (decode v = .ok .clear ↔ v = 0x0000000F#32)

/-- Decoding and encoding agree in both directions, the accepted words are the well-formed ones, and the rows of the
opcode table do not overlap. -/
def Obligations.DecodeEncodeAgree : Prop :=
  (∀ i : Instr, i.wellFormed = true → decode (encode i) = .ok i) ∧
  (∀ (v : Word) (i : Instr), decode v = .ok i → encode i = v) ∧
  (∀ v : Word, commandWordWellFormed v = true ↔ ∃ i, decode v = .ok i) ∧
  (∀ (v : Word) (a b : String × Instr), a ∈ opcodeRows → b ∈ opcodeRows → rowMatches a v = true →
    rowMatches b v = true → a = b)

/-- R49: a write of `v` to `CMD` executes what the fields `RSV = v[31:4]` and `OP = v[3:0]` say. -/
def Obligations.CmdWriteExecutesByFields : Prop :=
  ∀ (v : Word) (s : State),
    busWrite 32 0x08 v s =
      if v.extractLsb' 4 28 ≠ 0#28 then
        .next (if s.err = true then s else { s with err := true, errcode := 1#4 })
      else if v.extractLsb' 0 4 = 0x0#4 then exec .nop s
      else if v.extractLsb' 0 4 = 0x1#4 then exec .gather s
      else if v.extractLsb' 0 4 = 0x2#4 then exec .synd s
      else if v.extractLsb' 0 4 = 0x3#4 then exec .decode s
      else if v.extractLsb' 0 4 = 0x4#4 then exec .correct s
      else if v.extractLsb' 0 4 = 0x5#4 then exec .scatter s
      else if v.extractLsb' 0 4 = 0x6#4 then exec .recover s
      else if v.extractLsb' 0 4 = 0x7#4 then exec .embed s
      else if v.extractLsb' 0 4 = 0x8#4 then exec .extract s
      else if v.extractLsb' 0 4 = 0xF#4 then exec .clear s
      else .next (if s.err = true then s else { s with err := true, errcode := 1#4 })

/-- R51, R52, R83: a word with any of bits [31:4] set, whatever its `OP`, and a reserved opcode, raise `ILLEGAL_CMD` and
change no register other than `STATUS.ERR` and `STATUS.ERRCODE`. -/
def Obligations.IllegalWordOnlyRecordsError : Prop :=
  ∀ (v : Word) (s : State), 16 ≤ v.toNat ∨ (0x9 ≤ v.toNat % 16 ∧ v.toNat % 16 ≤ 0xE) →
    busWrite 32 0x08 v s = .next (if s.err = true then s else { s with err := true, errcode := 1#4 })

/-! ### A step -/

/-- A step runs the decoded command: when the next access is a write of `CMD` whose word decodes to `i`, the step is
`exec i` at the state with that access taken off the host's list. -/
def Obligations.StepRunsDecodedCommand : Prop :=
  ∀ (s : State) (v : Word) (i : Instr) (rest : List Input),
    s.pending = .write 32 0x08 v :: rest → decode v = .ok i → step s = exec i { s with pending := rest }

/-- With no access left the engine stays as it is (the model's reading, log entry 2). -/
def Obligations.StepWithoutAccessIsIdle : Prop :=
  ∀ s : State, s.pending = [] → step s = .next s

/-- The engine never stops: any number of steps from any state answers a next state. -/
def Obligations.RunNeverStops : Prop :=
  ∀ (n : Nat) (s : State), ∃ t : State, Host.Core.run core n s = .next t

/-- Accesses are performed one at a time in the order they arrive: running as many steps as a list has accesses is the
sequential composition of the accesses' own effects, and leaves the later accesses. -/
def Obligations.RunPerformsAccessesInOrder : Prop :=
  ∀ (l rest : List Input) (s : State),
    Host.Core.run core l.length { s with pending := l ++ rest } = performAll l { s with pending := rest }

/-- What a step does to the host's side: the access is consumed, a read adds exactly its value. -/
def Obligations.StepConsumesOneAccess : Prop :=
  ∀ (s : State) (i : Input) (rest : List Input), s.pending = i :: rest →
    ∃ t : State, step s = .next t ∧ t.pending = rest ∧
      t.returned = (match i with
        | .read width off => (busRead width off { s with pending := rest }).1 :: s.returned
        | .write _ _ _ => s.returned
        | .reset => s.returned)

/-! ### Bus accesses -/

/-- R38: `BusRead`, for every width and offset. -/
def Obligations.BusReadByOffset : Prop :=
  ∀ (width off : Nat) (s : State),
    busRead width off s =
      if width ≠ 32 ∨ off % 4 ≠ 0 ∨ 0x3C < off ∨ (0x28 ≤ off ∧ off ≤ 0x3C) then
        (0x00000000#32, (if s.err = true then s else { s with err := true, errcode := 2#4 }))
      else if off = 0x00 then (0x53594E01#32, s)
      else if off = 0x04 then
        (BitVec.setWidth 32 (s.errcode ++ 0b0#1 ++ BitVec.ofBool s.valid ++ BitVec.ofBool s.flip
          ++ BitVec.ofBool s.err), s)
      else if off = 0x08 then (0x00000000#32, s)
      else if off = 0x0C then (s.cover, s)
      else if off = 0x10 then (BitVec.setWidth 32 s.secret, s)
      else if off = 0x14 then (BitVec.setWidth 32 s.win, s)
      else if off = 0x18 then (BitVec.setWidth 32 s.syn, s)
      else if off = 0x1C then (BitVec.setWidth 32 s.idx, s)
      else if off = 0x20 then (s.out, s)
      else (BitVec.setWidth 32 s.recov, s)

/-- R39: `BusWrite`, for every width, offset and value. -/
def Obligations.BusWriteByOffset : Prop :=
  ∀ (width off : Nat) (v : Word) (s : State),
    busWrite width off v s =
      if width ≠ 32 ∨ off % 4 ≠ 0 ∨ 0x3C < off ∨ (0x28 ≤ off ∧ off ≤ 0x3C) then
        .next (if s.err = true then s else { s with err := true, errcode := 2#4 })
      else if off = 0x00 ∨ off = 0x20 ∨ off = 0x24 then
        .next (if s.err = true then s else { s with err := true, errcode := 2#4 })
      else if off = 0x04 then
        .next (if v.getLsbD 0 = true then { s with err := false, errcode := 0#4 } else s)
      else if off = 0x08 then execute v s
      else if off = 0x0C then .next { s with cover := v }
      else if off = 0x10 then .next { s with secret := v.extractLsb' 0 8 }
      else if off = 0x14 then .next { s with win := v.extractLsb' 0 15 }
      else if off = 0x18 then .next { s with syn := v.extractLsb' 0 4 }
      else .next { s with idx := v.extractLsb' 0 4 }

/-- R15, R29: the fields of `STATUS` as a read shows them, and a write, which is never an error: it clears `ERR` and
`ERRCODE` when bit 0 is 1 and ignores every other bit. The last clause is the reset value. -/
def Obligations.StatusFieldsReadAndClear : Prop :=
  (∀ s : State, (busRead 32 0x04 s).2 = s ∧
    ∀ j < 32, (busRead 32 0x04 s).1.getLsbD j =
      if j = 0 then s.err else if j = 1 then s.flip else if j = 2 then s.valid else if j = 3 then false
      else if j < 8 then s.errcode.getLsbD (j - 4) else false) ∧
  (∀ (v : Word) (s : State), busWrite 32 0x04 v s =
    .next { s with err := s.err && !v.getLsbD 0, errcode := if v.getLsbD 0 = true then 0#4 else s.errcode }) ∧
  (busRead 32 0x04 State.reset).1 = 0x00000000#32

/-- The read/write registers hold what the host wrote, cut to their width: a write followed by a read of the same
register (R17 to R21). -/
def Obligations.HostWriteThenReadMasksToWidth : Prop :=
  ∀ (s : State) (v : Word), ∀ om ∈ [(0x0C, 0xFFFFFFFF#32), (0x10, 0x000000FF#32), (0x14, 0x00007FFF#32),
      (0x18, 0x0000000F#32), (0x1C, 0x0000000F#32)],
    ∃ t : State, busWrite 32 om.1 v s = .next t ∧ busRead 32 om.1 t = (v &&& om.2, t)

/-- Reads are idempotent: a second read of the same offset, at any width, returns the same value. -/
def Obligations.ReadsAreIdempotent : Prop :=
  ∀ (width off : Nat) (s : State),
    (busRead width off (busRead width off s).2).1 = (busRead width off s).1 ∧
    State.sameData (busRead width off s).2 s

/-- R85's first half: an access turned away by the access check raises `BAD_ACCESS` only and its data is not examined. -/
def Obligations.RefusedAccessIgnoresData : Prop :=
  ∀ (width off : Nat) (v v' : Word) (s : State),
    width ≠ 32 ∨ off % 4 ≠ 0 ∨ 0x3C < off ∨ (0x28 ≤ off ∧ off ≤ 0x3C) →
    busWrite width off v s = busWrite width off v' s ∧
    busWrite width off v s = .next (if s.err = true then s else { s with err := true, errcode := 2#4 })

/-! ### Errors -/

/-- R80, R82: every input that raises an error records it (unless one is recorded), performs none of its
writes, gives 0 to the host if it is a read, and the machine goes on. -/
def Obligations.ErroneousInputHasNoOtherEffect : Prop :=
  ∀ (x : Input) (s : State) (code : Nibble), (x.isBadAccess ∧ code = 2#4) ∨ (x.isIllegalCmd ∧ code = 1#4) →
    perform x s = .next
      { s with
        err := true
        errcode := if s.err = true then s.errcode else code
        returned := (match x with
          | .read _ _ => 0x00000000#32 :: s.returned
          | .write _ _ _ => s.returned
          | .reset => s.returned) }

/-- R25, R84, R86: the error record after any input: cleared by reset and by a STATUS write with bit 0 = 1,
set only by an input that raises an error and only if it was clear, and otherwise kept. -/
def Obligations.ErrorRecordAfterAnyInput : Prop :=
  State.reset.err = false ∧ ∀ (x : Input) (s : State), ∃ t : State, perform x s = .next t ∧
    (x.clearsErrors → t.err = false ∧ t.errcode = 0#4) ∧
    (x.isBadAccess → t.err = true ∧ t.errcode = if s.err = true then s.errcode else 2#4) ∧
    (x.isIllegalCmd → t.err = true ∧ t.errcode = if s.err = true then s.errcode else 1#4) ∧
    (¬ x.clearsErrors → ¬ x.isBadAccess → ¬ x.isIllegalCmd → t.err = s.err ∧ t.errcode = s.errcode)

/-- R87: errors do not block: an input does to the registers and flags, and gives to the host (unless it reads STATUS),
the same whatever the error record holds; an error raised while `ERR = 1` is lost. -/
def Obligations.ErrorsDoNotBlock : Prop :=
  ∀ (x : Input) (s : State) (e : Bool) (c : Nibble), ∃ t u : State,
    perform x s = .next t ∧ perform x { s with err := e, errcode := c } = .next u ∧ State.sameData u t ∧
    (x ≠ .read 32 0x04 → u.returned = t.returned) ∧
    (s.err = true → x.isBadAccess ∨ x.isIllegalCmd → t.err = true ∧ t.errcode = s.errcode)

/-- `ERR` is cleared only by reset or by a STATUS write with bit 0 = 1, and while it stays 1 the code stays: over a
whole step. -/
def Obligations.OnlyStatusWriteOrResetClearsError : Prop :=
  ∀ s t : State, step s = .next t → s.err = true →
    (t.err = true ∧ t.errcode = s.errcode) ∨
    (t.err = false ∧ t.errcode = 0#4 ∧ ∃ x rest, s.pending = x :: rest ∧ x.clearsErrors)

/-! ### Reset and the invariant -/

/-- R93: reset sets every register to its reset value from any state, `STATUS` then reads 0, `ID` reads the same before
and after. -/
def Obligations.ResetSetsEveryRegister : Prop :=
  ∀ s : State, ∃ t : State, perform .reset s = .next t ∧
    t.cover = 0#32 ∧ t.secret = 0#8 ∧ t.win = 0#15 ∧ t.syn = 0#4 ∧ t.idx = 0#4 ∧ t.out = 0#32 ∧ t.recov = 0#8 ∧
    t.err = false ∧ t.flip = false ∧ t.valid = false ∧ t.errcode = 0#4 ∧
    (busRead 32 0x04 t).1 = 0x00000000#32 ∧
    (busRead 32 0x00 s).1 = 0x53594E01#32 ∧ (busRead 32 0x00 t).1 = 0x53594E01#32

/-- The state after reset: every register of R30 at the value of R93. That the host's lists are empty is the model's
choice (log entry 3). -/
def Obligations.ResetStateHoldsInvariant : Prop :=
  State.Inv State.reset ∧
  State.reset = { cover := 0#32, secret := 0#8, win := 0#15, syn := 0#4, idx := 0#4, out := 0#32, recov := 0#8, err := false,
                  flip := false, valid := false, errcode := 0#4, pending := [], returned := [] }

/-- The invariant every step keeps: `ERRCODE` is 0 exactly when `ERR` is 0 and never above 2 (R28, R81), `RECOV[3:0]` is
0 (R23). -/
def Obligations.EveryStepKeepsInvariant : Prop :=
  ∀ s t : State, State.Inv s → step s = .next t → State.Inv t

/-! ### The commands -/

/-- R77 `NOP`: no register changes, `STATUS` included. -/
def Obligations.NopChangesNothing : Prop :=
  decode 0x00000000#32 = .ok .nop ∧ ∀ s : State, exec .nop s = .next s

/-- R71, R72 `GATHER`: `WIN` is the four low fields of `COVER`, position by position; nothing else changes. -/
def Obligations.GatherBuildsTheWindow : Prop :=
  decode 0x00000001#32 = .ok .gather ∧ ∀ s : State, ∃ t : State, exec .gather s = .next t ∧
    t = { s with win := s.cover.extractLsb' 0 3 ++ s.cover.extractLsb' 8 4 ++ s.cover.extractLsb' 16 4
                          ++ s.cover.extractLsb' 24 4 } ∧
    (∀ p, 1 ≤ p → p ≤ 3 → pos t.win p = s.cover.getLsbD (3 - p)) ∧
    (∀ p, 4 ≤ p → p ≤ 7 → pos t.win p = s.cover.getLsbD (15 - p)) ∧
    (∀ p, 8 ≤ p → p ≤ 11 → pos t.win p = s.cover.getLsbD (27 - p)) ∧
    (∀ p, 12 ≤ p → p ≤ 15 → pos t.win p = s.cover.getLsbD (39 - p))

/-- R58, R62 `SYND`: `SYN` is the product of H with `WIN`, row by row, each component the exclusive OR over the 15
positions of `H[r][p] & pos(w, p)`; nothing else changes. The matrix is R57's. -/
def Obligations.SyndMultipliesTheWindow : Prop :=
  decode 0x00000002#32 = .ok .synd ∧ ∀ s : State, ∃ t : State, exec .synd s = .next t ∧ t = { s with syn := multiply s.win } ∧
    (∀ r, 1 ≤ r → r ≤ 4 → t.syn.getLsbD (4 - r) =
      ((List.range 15).map (fun q => parityMatrix r (q + 1) && s.win.getLsbD (14 - q))).foldl xor false) ∧
    (s.win = 0#15 → t.syn = 0#4) ∧ (s.win = 0x7FFF#15 → t.syn = 0#4) ∧
    (∀ p, 1 ≤ p → p ≤ 15 → s.win = 1#15 <<< (15 - p) → t.syn = BitVec.ofNat 4 p)

/-- R63 `DECODE`: `IDX` is the secret nibble XOR `SYN`, `VALID` is whether it is not 0; nothing else changes, and
`SECRET[3:0]` is ignored. -/
def Obligations.DecodeWritesIndexAndValid : Prop :=
  decode 0x00000003#32 = .ok .decode ∧
  ∀ s : State, exec .decode s =
    .next { s with idx := s.secret.extractLsb' 4 4 ^^^ s.syn
                   valid := decide (s.secret.extractLsb' 4 4 ^^^ s.syn ≠ 0#4) }

/-- The hardware reading of the decoder, which R63 marks derived: matching the difference against the columns of H gives
the same index as `bitsToIndex`. -/
def Obligations.ColumnMatcherGivesTheIndex : Prop :=
  ∀ d : Nibble, columnMatch d = syndromeIndex d

/-- R65 `CORRECT`: `FLIP` is whether `IDX` is not 0; then the bit of `WIN` at position `IDX`, bit `15 - IDX`, is
flipped, otherwise `WIN` is unchanged; nothing else changes; a second `CORRECT` restores `WIN`. -/
def Obligations.CorrectFlipsTheIndexedBit : Prop :=
  decode 0x00000004#32 = .ok .correct ∧
  (∀ s : State, exec .correct s =
    .next { s with win := if s.idx = 0#4 then s.win else s.win ^^^ (1#15 <<< (15 - s.idx.toNat))
                   flip := decide (s.idx ≠ 0#4) }) ∧
  (∀ s : State, andThen (exec .correct s) (exec .correct) = .next { s with flip := decide (s.idx ≠ 0#4) })

/-- R74 `SCATTER`: `OUT` is `COVER` with its low fields replaced by `WIN`'s positions; nothing else changes. -/
def Obligations.ScatterAssemblesTheLanes : Prop :=
  decode 0x00000005#32 = .ok .scatter ∧ ∀ s : State, exec .scatter s =
    .next { s with out := s.cover.extractLsb' 28 4 ++ s.win.extractLsb' 0 4
                            ++ (s.cover.extractLsb' 20 4 ++ s.win.extractLsb' 4 4)
                            ++ (s.cover.extractLsb' 12 4 ++ s.win.extractLsb' 8 4)
                            ++ (s.cover.extractLsb' 3 5 ++ s.win.extractLsb' 12 3) }

/-- R76 `RECOVER`: `RECOV` is `SYN` followed by four zero bits; nothing else changes. -/
def Obligations.RecoverAssemblesTheByte : Prop :=
  decode 0x00000006#32 = .ok .recover ∧ ∀ s : State, exec .recover s = .next { s with recov := BitVec.setWidth 8 s.syn <<< 4 } ∧
    (BitVec.setWidth 8 s.syn <<< 4).extractLsb' 4 4 = s.syn ∧ (BitVec.setWidth 8 s.syn <<< 4).extractLsb' 0 4 = 0#4

/-- R67 `EMBED`: every register it writes; the state is that of the five primitives in order; `OUT` is `COVER` when
the index is 0 and otherwise differs from it in exactly one bit, one of the four low fields. -/
def Obligations.EmbedWritesAllStages : Prop :=
  decode 0x00000007#32 = .ok .embed ∧ ∀ s : State,
    let w := gather s.cover
    let i := s.secret.extractLsb' 4 4 ^^^ multiply w
    let w2 := if i = 0#4 then w else w ^^^ (1#15 <<< (15 - i.toNat))
    exec .embed s =
      .next { s with win := w2, syn := multiply w, idx := i, valid := decide (i ≠ 0#4), flip := decide (i ≠ 0#4)
                     out := scatter s.cover w2 } ∧
    (andThen (exec .gather s) fun s1 => andThen (exec .synd s1) fun s2 => andThen (exec .decode s2) fun s3 =>
      andThen (exec .correct s3) fun s4 => exec .scatter s4) = exec .embed s ∧
    (i = 0#4 → scatter s.cover w2 = s.cover) ∧
    (i ≠ 0#4 → ∃ b ∈ [0, 1, 2, 8, 9, 10, 11, 16, 17, 18, 19, 24, 25, 26, 27],
      scatter s.cover w2 = s.cover ^^^ (1#32 <<< b))

/-- R69 `EXTRACT`: `WIN`, `SYN` and `RECOV` from `COVER`; nothing else changes; the state is that of `GATHER`,
`SYND`, `RECOVER` in order. -/
def Obligations.ExtractReadsTheNibble : Prop :=
  decode 0x00000008#32 = .ok .extract ∧ ∀ s : State,
    exec .extract s = .next { s with win := gather s.cover, syn := multiply (gather s.cover)
                                     recov := multiply (gather s.cover) ++ 0#4 } ∧
    (andThen (exec .gather s) fun s1 => andThen (exec .synd s1) fun s2 => exec .recover s2) = exec .extract s

/-- R78 `CLEAR`: every data register, `FLIP` and `VALID` to 0; `ERR` and `ERRCODE` are unchanged, so the engine is in
its reset state but for those two. -/
def Obligations.ClearKeepsOnlyTheErrorRecord : Prop :=
  decode 0x0000000F#32 = .ok .clear ∧ ∀ s : State, exec .clear s =
    .next { s with cover := 0#32, secret := 0#8, win := 0#15, syn := 0#4, idx := 0#4, out := 0#32, recov := 0#8
                   flip := false, valid := false } ∧
    exec .clear s = .next { resetEngine s with err := s.err, errcode := s.errcode }

/-- The frame of every command: a register changes only if the spec's table of writers names the command, and no
command touches the error record or the host's side. -/
def Obligations.CommandFrames : Prop :=
  ∀ (i : Instr) (s t : State), exec i s = .next t →
    (i ≠ .clear → t.cover = s.cover ∧ t.secret = s.secret) ∧
    (i ∉ [.gather, .correct, .embed, .extract, .clear] → t.win = s.win) ∧
    (i ∉ [.synd, .embed, .extract, .clear] → t.syn = s.syn) ∧
    (i ∉ [.decode, .embed, .clear] → t.idx = s.idx) ∧
    (i ∉ [.scatter, .embed, .clear] → t.out = s.out) ∧
    (i ∉ [.recover, .extract, .clear] → t.recov = s.recov) ∧
    (i ∉ [.correct, .embed, .clear] → t.flip = s.flip) ∧
    (i ∉ [.decode, .embed, .clear] → t.valid = s.valid) ∧
    t.err = s.err ∧ t.errcode = s.errcode ∧ t.pending = s.pending ∧ t.returned = s.returned

/-- R26, R27: `FLIP` and `VALID` after every command, from the index the command used; a host write of any register,
`IDX` among them, leaves both. -/
def Obligations.FlipAndValidAfterEveryCommand : Prop :=
  (∀ (i : Instr) (s : State), ∃ t : State, exec i s = .next t ∧
    t.flip = (match i with
      | .correct => decide (1 ≤ s.idx.toNat ∧ s.idx.toNat ≤ 15)
      | .embed => decide (1 ≤ t.idx.toNat ∧ t.idx.toNat ≤ 15)
      | .clear => false
      | _ => s.flip) ∧
    t.valid = (match i with
      | .decode => decide (1 ≤ t.idx.toNat ∧ t.idx.toNat ≤ 15)
      | .embed => decide (1 ≤ t.idx.toNat ∧ t.idx.toNat ≤ 15)
      | .clear => false
      | _ => s.valid)) ∧
  (∀ (off : Nat) (v : Word) (s : State), off ≠ 0x08 → ∃ t : State, busWrite 32 off v s = .next t ∧
    t.flip = s.flip ∧ t.valid = s.valid) ∧
  State.reset.flip = false ∧ State.reset.valid = false

/-- Who can change the inputs of a window, over a whole step: `COVER` and `SECRET` change only by a host write of them,
by `CLEAR`, or by reset. -/
def Obligations.CoverAndSecretWriters : Prop :=
  ∀ (s t : State) (x : Input) (rest : List Input), s.pending = x :: rest → step s = .next t →
    (t.cover ≠ s.cover → x.writesOffset 0x0C ∨ x.runs .clear ∨ x = .reset) ∧
    (t.secret ≠ s.secret → x.writesOffset 0x10 ∨ x.runs .clear ∨ x = .reset)

/-- Who can change the intermediate registers, over a whole step. -/
def Obligations.WindowSyndromeIndexWriters : Prop :=
  ∀ (s t : State) (x : Input) (rest : List Input), s.pending = x :: rest → step s = .next t →
    (t.win ≠ s.win → x.writesOffset 0x14 ∨ x.runs .gather ∨ x.runs .correct ∨ x.runs .embed ∨ x.runs .extract ∨
      x.runs .clear ∨ x = .reset) ∧
    (t.syn ≠ s.syn → x.writesOffset 0x18 ∨ x.runs .synd ∨ x.runs .embed ∨ x.runs .extract ∨ x.runs .clear ∨
      x = .reset) ∧
    (t.idx ≠ s.idx → x.writesOffset 0x1C ∨ x.runs .decode ∨ x.runs .embed ∨ x.runs .clear ∨ x = .reset)

/-- Who can change the results and the flags, over a whole step: only commands and reset, never a host write. -/
def Obligations.ResultAndFlagWriters : Prop :=
  ∀ (s t : State) (x : Input) (rest : List Input), s.pending = x :: rest → step s = .next t →
    (t.out ≠ s.out → x.runs .scatter ∨ x.runs .embed ∨ x.runs .clear ∨ x = .reset) ∧
    (t.recov ≠ s.recov → x.runs .recover ∨ x.runs .extract ∨ x.runs .clear ∨ x = .reset) ∧
    (t.flip ≠ s.flip → x.runs .correct ∨ x.runs .embed ∨ x.runs .clear ∨ x = .reset) ∧
    (t.valid ≠ s.valid → x.runs .decode ∨ x.runs .embed ∨ x.runs .clear ∨ x = .reset)

/-! ### The matrix and the codec -/

/-- The rows of H written out (41_gf2_engine.md §1; the spec derives H from the source's guarantee). -/
def Obligations.ParityMatrixRows : Prop :=
  (List.range 15).map (fun q => parityMatrix 1 (q + 1)) =
    [0,0,0,0,0,0,0,1,1,1,1,1,1,1,1].map (· == (1 : Nat)) ∧
  (List.range 15).map (fun q => parityMatrix 2 (q + 1)) =
    [0,0,0,1,1,1,1,0,0,0,0,1,1,1,1].map (· == (1 : Nat)) ∧
  (List.range 15).map (fun q => parityMatrix 3 (q + 1)) =
    [0,1,1,0,0,1,1,0,0,1,1,0,0,1,1].map (· == (1 : Nat)) ∧
  (List.range 15).map (fun q => parityMatrix 4 (q + 1)) =
    [1,0,1,0,1,0,1,0,1,0,1,0,1,0,1].map (· == (1 : Nat))

/-- The closed form of the product (derived by the spec from R57 and R58): the exclusive OR of the positions of the 1
bits; linear; flipping position `k` changes it by `k`. -/
def Obligations.ProductIsXorOfPositions : Prop :=
  (∀ w : Window, multiply w =
    (List.range 15).foldl (fun acc q => if w.getLsbD (14 - q) = true then acc ^^^ BitVec.ofNat 4 (q + 1) else acc) 0#4) ∧
  (∀ a b : Window, multiply (a ^^^ b) = multiply a ^^^ multiply b) ∧
  (∀ (w : Window) (k : Nat), 1 ≤ k → k ≤ 15 →
    multiply (w ^^^ BitVec.ofNat 15 (2 ^ (15 - k))) = multiply w ^^^ BitVec.ofNat 4 k)

/-- H is forced: a 4×15 matrix for which correcting any window by the index of the syndrome difference gives a window
whose product is the nibble is the matrix of R57 (the spec's own derivation), and that matrix has the property. -/
def Obligations.ParityMatrixIsForced : Prop :=
  ∀ H : Nat → Nat → Bool,
    (∀ (w : Window) (n : Nibble), multiplyWith H (flipAt w (syndromeIndex (n ^^^ multiplyWith H w))) = n) ↔
    (∀ r k, 1 ≤ r → r ≤ 4 → 1 ≤ k → k ≤ 15 → H r k = (k >>> (4 - r)).testBit 0)

/-- R60: `bitsToIndex` is the weighted sum, most significant bit first; on four components it is 8, 4, 2, 1; on a
15-bit window it is the register value, on a 4-bit vector the identity. -/
def Obligations.BitsToIndexIsMsbFirstSum : Prop :=
  (∀ bs : List Bool, bitsToIndex bs =
    ((List.range bs.length).map (fun j => (bs.getD j false).toNat * 2 ^ (bs.length - 1 - j))).sum) ∧
  (∀ s1 s2 s3 s4 : Bool, bitsToIndex [s1, s2, s3, s4] = 8 * s1.toNat + 4 * s2.toNat + 2 * s3.toNat + s4.toNat) ∧
  (∀ d : Nibble, syndromeIndex d = d) ∧
  (∀ w : Window, bitsToIndex (msbFirst w) = w.toNat)

/-- R61: an index is valid in the 1-based range; for a 4-bit index and length 15 that is "not 0". -/
def Obligations.IndexValidInOneBasedRange : Prop :=
  (∀ i length : Nat, indexIsValid i length = true ↔ 1 ≤ i ∧ i ≤ length) ∧
  (∀ i : Nibble, indexIsValid i.toNat 15 = decide (i ≠ 0#4))

/-- R64: the corrector flips exactly the indexed position when the index is valid and leaves the window otherwise; the
one-hot reading gives the same window. -/
def Obligations.FlipChangesOnlyTheIndexedPosition : Prop :=
  ∀ (w : Window) (i : Nibble),
    (∀ p, 1 ≤ p → p ≤ 15 → pos (flipAt w i) p = xor (pos w p) (decide (p = i.toNat))) ∧
    (i = 0#4 → flipAt w i = w) ∧ flipAt w i = w ^^^ oneHot i

/-- The source's properties of matrix embedding (42_window_codec.md §3, derived by the spec): syndrome correctness, at
most one bit edited, no edit when the syndrome already matches. -/
def Obligations.MatrixEmbeddingProperties : Prop :=
  ∀ (w : Window) (n : Nibble),
    extractNibble (embedNibble w n) = n ∧
    (embedNibble w n = w ∨ ∃ p, 1 ≤ p ∧ p ≤ 15 ∧
      ∀ q, 1 ≤ q → q ≤ 15 → pos (embedNibble w n) q = xor (pos w q) (decide (q = p))) ∧
    (multiply w = n → embedNibble w n = w)

/-- `gather` and `scatter` are inverse on the window bits, and `scatter` keeps the high bits of every lane
(43_bitfield.md R73's identities, derived by the spec). -/
def Obligations.GatherScatterInverse : Prop :=
  (∀ (c : Word) (w : Window), gather (scatter c w) = w) ∧ (∀ c : Word, scatter c (gather c) = c) ∧
  (∀ (c : Word) (w : Window), scatter c w &&& 0xF0F0F0F8#32 = c &&& 0xF0F0F0F8#32)

/-- At command level (42_window_codec.md §3): after `EMBED`, the word `OUT` put back into `COVER` by the host and
`EXTRACT`ed gives the secret's top four bits followed by four zeros, whatever state the second engine is in. -/
def Obligations.ExtractRecoversWhatEmbedHid : Prop :=
  ∀ s s' : State, ∃ t u v : State, exec .embed s = .next t ∧ busWrite 32 0x0C (busRead 32 0x20 t).1 s' = .next u ∧
    exec .extract u = .next v ∧ v.recov = s.secret.extractLsb' 4 4 ++ 0#4

/-! ### Host programs and the block walk -/

/-- R56 on the machine: `embed.seq` and `extract.seq` end in the same state as the composite commands, `clrerr` clears
the error record, `window c, s` writes `COVER` and `SECRET`. -/
def Obligations.PseudoInstructionsExpand : Prop :=
  ∀ (s : State) (c x : Word),
    performAll (Stmt.accesses .embedSeq) s = performAll (Stmt.accesses (.cmd .embed)) s ∧
    performAll (Stmt.accesses .extractSeq) s = performAll (Stmt.accesses (.cmd .extract)) s ∧
    performAll (Stmt.accesses .clrerr) s = .next { s with err := false, errcode := 0#4 } ∧
    performAll (Stmt.accesses (.window c x)) s = .next { s with cover := c, secret := x.extractLsb' 0 8 }

/-- The number of blocks of a column under both bounds, and that block `k` is among them exactly when its origin
row `4k` satisfies the bound against `height − 4`. -/
def Obligations.BlocksOfAColumn : Prop :=
  ∀ height k : Nat,
    (k < blocksPerColumn .inclusive height ↔ (4 * k : Int) ≤ height - 4) ∧
    (k < blocksPerColumn .exclusive height ↔ (4 * k : Int) < height - 4) ∧
    blocksPerColumn .inclusive height = height / 4 ∧
    (height % 4 ≠ 0 → blocksPerColumn .exclusive height = blocksPerColumn .inclusive height) ∧
    (height % 4 = 0 → 4 ≤ height → blocksPerColumn .exclusive height + 1 = blocksPerColumn .inclusive height)

/-- `embed_block` (80_host_interface.md §2): one block and channel of `merge` through the bus: `COVER` gets the four channel bytes, pixel₁ lowest; it
completes, returns the corrected lanes, records no error, and is what four steps of the engine do with those four
accesses pending. -/
def Obligations.EmbedBlockThroughTheBus : Prop :=
  (∀ (C : Grid) (x k : Nat) (c : Channel), blockWord C x k c =
    (channelOf c (C.get x (4 * k))).setWidth 32 ||| ((channelOf c (C.get x (4 * k + 1))).setWidth 32 <<< 8)
      ||| ((channelOf c (C.get x (4 * k + 2))).setWidth 32 <<< 16)
      ||| ((channelOf c (C.get x (4 * k + 3))).setWidth 32 <<< 24)) ∧
  ∀ (c : Word) (b : Byte) (s : State), ∃ t : State,
    embedBlock c b s = .next (scatter c (embedNibble (gather c) (b.extractLsb' 4 4)), t) ∧
    t.err = s.err ∧ t.errcode = s.errcode ∧
    Host.Core.run core 4 { s with pending := [.write 32 0x0C c, .write 32 0x10 (b.setWidth 32),
        .write 32 0x08 0x00000007#32, .read 32 0x20] ++ s.pending } =
      .next { t with returned := scatter c (embedNibble (gather c) (b.extractLsb' 4 4)) :: s.returned }

/-- R104: `merge` fails with `DimensionError` exactly when the secret is wider or taller than the cover. -/
def Obligations.MergeChecksDimensionsFirst : Prop :=
  ∀ (params : HostParams) (C S : Grid) (s : State),
    merge params C S s = .error .dimensionError ↔ ¬ (S.width ≤ C.width ∧ S.height ≤ C.height)

/-- R105, R110, with the write-back lanes of §2: `merge` of a cover grid completes; the stego grid has the cover's dimensions; every
block and channel holds the lanes of its embedded window, the secret pixel being the one at the cursor `(k, x)` or black
outside the secret; rows below the last block are the cover's. -/
def Obligations.MergeEmbedsEveryBlock : Prop :=
  ∀ (params : HostParams) (C S : Grid) (s : State), C.wf = true → S.width ≤ C.width → S.height ≤ C.height →
    ∃ (T : Grid) (t : State), merge params C S s = .ok (.next (T, t)) ∧
      T.width = C.width ∧ T.height = C.height ∧ T.wf = true ∧
      (∀ x k j c, x < C.width → k < blocksPerColumn params.rowBound C.height → j < 4 →
        channelOf c (T.get x (4 * k + j)) =
          lane (scatter (blockWord C x k c) (embedNibble (gather (blockWord C x k c))
            ((channelOf c (if k < S.width ∧ x < S.height then S.get k x else Pixel.black)).extractLsb' 4 4))) j) ∧
      (∀ x y, 4 * blocksPerColumn params.rowBound C.height ≤ y → T.get x y = C.get x y)

/-- R113, R115, R116: `unmerge` of a grid completes; the output has the stego's dimensions; the pixel at `(k, x)` is block
`k` of column `x` recovered channel by channel, where there is such a block, and the background elsewhere. -/
def Obligations.UnmergeRecoversEveryBlock : Prop :=
  ∀ (params : HostParams) (T : Grid) (s : State),
    ∃ (U : Grid) (t : State), unmerge params T s = .next (U, t) ∧
      U.width = T.width ∧ U.height = T.height ∧
      (∀ k x, k < T.width → x < T.height →
        U.get k x =
          if k < blocksPerColumn params.rowBound T.height ∧ x < T.width then
            ⟨multiply (gather (blockWord T x k .r)) ++ 0#4, multiply (gather (blockWord T x k .g)) ++ 0#4,
              multiply (gather (blockWord T x k .b)) ++ 0#4⟩
          else params.background)

/-- The round trip of 80_host_interface.md §4 (derived by the spec): after `merge` and `unmerge` with the same
parameters, on engines in any state, every secret pixel that has a block is recovered with its low nibbles zeroed, and
every other secret position holds the background. -/
def Obligations.MergeUnmergeRoundTrip : Prop :=
  ∀ (params : HostParams) (C S : Grid) (s s' : State), C.wf = true → S.width ≤ C.width → S.height ≤ C.height →
    ∃ (T U : Grid) (t t' : State), merge params C S s = .ok (.next (T, t)) ∧ unmerge params T s' = .next (U, t') ∧
      ∀ sx sy, sx < S.width → sy < S.height →
        U.get sx sy =
          if sx < blocksPerColumn params.rowBound C.height ∧ sy < C.width then
            ⟨(S.get sx sy).r.extractLsb' 4 4 ++ 0#4, (S.get sx sy).g.extractLsb' 4 4 ++ 0#4,
              (S.get sx sy).b.extractLsb' 4 4 ++ 0#4⟩
          else params.background

/-! ### Several instances -/

/-- R91: an access to one instance never changes another: a step of instance `k` completes, is that instance's own
step, and leaves the base of every instance and the whole of every other. -/
def Obligations.InstancesShareNoState : Prop :=
  ∀ (p : Platform) (k : Nat), ∃ q : Platform, p.stepInst k = .next q ∧ q.insts.length = p.insts.length ∧
    (∀ j, j ≠ k → q.insts[j]? = p.insts[j]?) ∧
    (∀ i, p.insts[k]? = some i → ∃ e : State, step i.engine = .next e ∧ q.insts[k]? = some ⟨i.base, e⟩)

/-- Steps of different instances commute: the order across instances does not matter. -/
def Obligations.StepsOfInstancesCommute : Prop :=
  ∀ (p : Platform) (j k : Nat), j ≠ k →
    andThen (p.stepInst j) (Platform.stepInst k) = andThen (p.stepInst k) (Platform.stepInst j)

/-- R35, R36 with the model's routing (log entry 6): on a platform whose bases are distinct multiples of 64, a request
at an address of an instance's window arrives at that instance alone, as an access at the offset from its base; a
request outside every window arrives nowhere. -/
def Obligations.RequestsReachTheOwningInstance : Prop :=
  ∀ (p : Platform) (q : BusRequest), p.wf = true →
    (∀ k i, p.insts[k]? = some i → i.base ≤ q.addr → q.addr < i.base + 64 →
      p.issue q = some ⟨p.insts.set k ⟨i.base, { i.engine with
        pending := i.engine.pending ++ [match q with
          | .read width a => .read width (a - i.base)
          | .write width a v => .write width (a - i.base) v] }⟩⟩) ∧
    ((∀ i ∈ p.insts, q.addr < i.base ∨ i.base + 64 ≤ q.addr) → p.issue q = none)

/-- R41: a register as four bytes at increasing addresses: byte lane `j` at `ENGINE_BASE + off + j`, so `COVER`'s
pixel₁ byte is at the lowest address. -/
def Obligations.ByteLanesAreLittleEndian : Prop :=
  ∀ (i : EngineInst) (r : Reg),
    byteView i r = [(i.base + r.offset, (readReg r i.engine).extractLsb' 0 8),
      (i.base + r.offset + 1, (readReg r i.engine).extractLsb' 8 8),
      (i.base + r.offset + 2, (readReg r i.engine).extractLsb' 16 8),
      (i.base + r.offset + 3, (readReg r i.engine).extractLsb' 24 8)] ∧
    (byteView i .cover).head? = some (i.base + 0x0C, lane i.engine.cover 0)

/-- Parallel blocks (80_host_interface.md §4, 60_exceptions.md §6; the turns are the model's convention, log entry 11):
when every stream drives an idle instance of its own and every block is dealt once, then under every schedule of turns
the streams go on, touch no other instance, and, once finished, hold the grid that `merge` or `unmerge` gives on one
engine in any state; and some schedule finishes. -/
def Obligations.ParallelStreamsAgreeWithSequentialWalk : Prop :=
  ∀ (params : HostParams) (p : Platform) (deal : BlockDeal) (s : State), p.wf = true →
    (∀ C S : Grid, C.wf = true → S.width ≤ C.width → S.height ≤ C.height →
      dealKeepsDuty params.rowBound C.width C.height p deal = true →
      ∃ (T : Grid) (t : State), merge params C S s = .ok (.next (T, t)) ∧
        (∀ schedule, ∃ w : ParallelWalk, mergeParallel C S p deal schedule = .ok (.next w) ∧
          (w.finished = true → w.output = T) ∧
          ∀ j, j ∉ deal.map Prod.fst → w.platform.insts[j]? = p.insts[j]?) ∧
        ∃ (schedule : List Nat) (w : ParallelWalk),
          mergeParallel C S p deal schedule = .ok (.next w) ∧ w.finished = true) ∧
    (∀ T : Grid, dealKeepsDuty params.rowBound T.width T.height p deal = true →
      ∃ (U : Grid) (t : State), unmerge params T s = .next (U, t) ∧
        (∀ schedule, ∃ w : ParallelWalk, unmergeParallel params T p deal schedule = .next w ∧
          (w.finished = true → w.output = U) ∧
          ∀ j, j ∉ deal.map Prod.fst → w.platform.insts[j]? = p.insts[j]?) ∧
        ∃ (schedule : List Nat) (w : ParallelWalk),
          unmergeParallel params T p deal schedule = .next w ∧ w.finished = true)
end

