-- ==== Sys2Proof/Laws/State.lean ====
section
/-! SUPPORT. One lemma per field per update of State, each true by unfolding the update, so that no later proof unfolds
a record update. -/

namespace Sys2Proof.Machine

variable (s : State)

@[simp] theorem setCover_cover (v : Word) : (setCover v s).cover = v := rfl
@[simp] theorem setCover_secret (v : Word) : (setCover v s).secret = s.secret := rfl
@[simp] theorem setCover_win (v : Word) : (setCover v s).win = s.win := rfl
@[simp] theorem setCover_syn (v : Word) : (setCover v s).syn = s.syn := rfl
@[simp] theorem setCover_idx (v : Word) : (setCover v s).idx = s.idx := rfl
@[simp] theorem setCover_out (v : Word) : (setCover v s).out = s.out := rfl
@[simp] theorem setCover_recov (v : Word) : (setCover v s).recov = s.recov := rfl
@[simp] theorem setCover_err (v : Word) : (setCover v s).err = s.err := rfl
@[simp] theorem setCover_flip (v : Word) : (setCover v s).flip = s.flip := rfl
@[simp] theorem setCover_valid (v : Word) : (setCover v s).valid = s.valid := rfl
@[simp] theorem setCover_errcode (v : Word) : (setCover v s).errcode = s.errcode := rfl
@[simp] theorem setCover_pending (v : Word) : (setCover v s).pending = s.pending := rfl
@[simp] theorem setCover_returned (v : Word) : (setCover v s).returned = s.returned := rfl

@[simp] theorem setSecret_cover (v : Byte) : (setSecret v s).cover = s.cover := rfl
@[simp] theorem setSecret_secret (v : Byte) : (setSecret v s).secret = v := rfl
@[simp] theorem setSecret_win (v : Byte) : (setSecret v s).win = s.win := rfl
@[simp] theorem setSecret_syn (v : Byte) : (setSecret v s).syn = s.syn := rfl
@[simp] theorem setSecret_idx (v : Byte) : (setSecret v s).idx = s.idx := rfl
@[simp] theorem setSecret_out (v : Byte) : (setSecret v s).out = s.out := rfl
@[simp] theorem setSecret_recov (v : Byte) : (setSecret v s).recov = s.recov := rfl
@[simp] theorem setSecret_err (v : Byte) : (setSecret v s).err = s.err := rfl
@[simp] theorem setSecret_flip (v : Byte) : (setSecret v s).flip = s.flip := rfl
@[simp] theorem setSecret_valid (v : Byte) : (setSecret v s).valid = s.valid := rfl
@[simp] theorem setSecret_errcode (v : Byte) : (setSecret v s).errcode = s.errcode := rfl
@[simp] theorem setSecret_pending (v : Byte) : (setSecret v s).pending = s.pending := rfl
@[simp] theorem setSecret_returned (v : Byte) : (setSecret v s).returned = s.returned := rfl

@[simp] theorem setWin_cover (v : Window) : (setWin v s).cover = s.cover := rfl
@[simp] theorem setWin_secret (v : Window) : (setWin v s).secret = s.secret := rfl
@[simp] theorem setWin_win (v : Window) : (setWin v s).win = v := rfl
@[simp] theorem setWin_syn (v : Window) : (setWin v s).syn = s.syn := rfl
@[simp] theorem setWin_idx (v : Window) : (setWin v s).idx = s.idx := rfl
@[simp] theorem setWin_out (v : Window) : (setWin v s).out = s.out := rfl
@[simp] theorem setWin_recov (v : Window) : (setWin v s).recov = s.recov := rfl
@[simp] theorem setWin_err (v : Window) : (setWin v s).err = s.err := rfl
@[simp] theorem setWin_flip (v : Window) : (setWin v s).flip = s.flip := rfl
@[simp] theorem setWin_valid (v : Window) : (setWin v s).valid = s.valid := rfl
@[simp] theorem setWin_errcode (v : Window) : (setWin v s).errcode = s.errcode := rfl
@[simp] theorem setWin_pending (v : Window) : (setWin v s).pending = s.pending := rfl
@[simp] theorem setWin_returned (v : Window) : (setWin v s).returned = s.returned := rfl

@[simp] theorem setSyn_cover (v : Nibble) : (setSyn v s).cover = s.cover := rfl
@[simp] theorem setSyn_secret (v : Nibble) : (setSyn v s).secret = s.secret := rfl
@[simp] theorem setSyn_win (v : Nibble) : (setSyn v s).win = s.win := rfl
@[simp] theorem setSyn_syn (v : Nibble) : (setSyn v s).syn = v := rfl
@[simp] theorem setSyn_idx (v : Nibble) : (setSyn v s).idx = s.idx := rfl
@[simp] theorem setSyn_out (v : Nibble) : (setSyn v s).out = s.out := rfl
@[simp] theorem setSyn_recov (v : Nibble) : (setSyn v s).recov = s.recov := rfl
@[simp] theorem setSyn_err (v : Nibble) : (setSyn v s).err = s.err := rfl
@[simp] theorem setSyn_flip (v : Nibble) : (setSyn v s).flip = s.flip := rfl
@[simp] theorem setSyn_valid (v : Nibble) : (setSyn v s).valid = s.valid := rfl
@[simp] theorem setSyn_errcode (v : Nibble) : (setSyn v s).errcode = s.errcode := rfl
@[simp] theorem setSyn_pending (v : Nibble) : (setSyn v s).pending = s.pending := rfl
@[simp] theorem setSyn_returned (v : Nibble) : (setSyn v s).returned = s.returned := rfl

@[simp] theorem setIdx_cover (v : Nibble) : (setIdx v s).cover = s.cover := rfl
@[simp] theorem setIdx_secret (v : Nibble) : (setIdx v s).secret = s.secret := rfl
@[simp] theorem setIdx_win (v : Nibble) : (setIdx v s).win = s.win := rfl
@[simp] theorem setIdx_syn (v : Nibble) : (setIdx v s).syn = s.syn := rfl
@[simp] theorem setIdx_idx (v : Nibble) : (setIdx v s).idx = v := rfl
@[simp] theorem setIdx_out (v : Nibble) : (setIdx v s).out = s.out := rfl
@[simp] theorem setIdx_recov (v : Nibble) : (setIdx v s).recov = s.recov := rfl
@[simp] theorem setIdx_err (v : Nibble) : (setIdx v s).err = s.err := rfl
@[simp] theorem setIdx_flip (v : Nibble) : (setIdx v s).flip = s.flip := rfl
@[simp] theorem setIdx_valid (v : Nibble) : (setIdx v s).valid = s.valid := rfl
@[simp] theorem setIdx_errcode (v : Nibble) : (setIdx v s).errcode = s.errcode := rfl
@[simp] theorem setIdx_pending (v : Nibble) : (setIdx v s).pending = s.pending := rfl
@[simp] theorem setIdx_returned (v : Nibble) : (setIdx v s).returned = s.returned := rfl

@[simp] theorem setOut_cover (v : Word) : (setOut v s).cover = s.cover := rfl
@[simp] theorem setOut_secret (v : Word) : (setOut v s).secret = s.secret := rfl
@[simp] theorem setOut_win (v : Word) : (setOut v s).win = s.win := rfl
@[simp] theorem setOut_syn (v : Word) : (setOut v s).syn = s.syn := rfl
@[simp] theorem setOut_idx (v : Word) : (setOut v s).idx = s.idx := rfl
@[simp] theorem setOut_out (v : Word) : (setOut v s).out = v := rfl
@[simp] theorem setOut_recov (v : Word) : (setOut v s).recov = s.recov := rfl
@[simp] theorem setOut_err (v : Word) : (setOut v s).err = s.err := rfl
@[simp] theorem setOut_flip (v : Word) : (setOut v s).flip = s.flip := rfl
@[simp] theorem setOut_valid (v : Word) : (setOut v s).valid = s.valid := rfl
@[simp] theorem setOut_errcode (v : Word) : (setOut v s).errcode = s.errcode := rfl
@[simp] theorem setOut_pending (v : Word) : (setOut v s).pending = s.pending := rfl
@[simp] theorem setOut_returned (v : Word) : (setOut v s).returned = s.returned := rfl

@[simp] theorem setRecov_cover (v : Byte) : (setRecov v s).cover = s.cover := rfl
@[simp] theorem setRecov_secret (v : Byte) : (setRecov v s).secret = s.secret := rfl
@[simp] theorem setRecov_win (v : Byte) : (setRecov v s).win = s.win := rfl
@[simp] theorem setRecov_syn (v : Byte) : (setRecov v s).syn = s.syn := rfl
@[simp] theorem setRecov_idx (v : Byte) : (setRecov v s).idx = s.idx := rfl
@[simp] theorem setRecov_out (v : Byte) : (setRecov v s).out = s.out := rfl
@[simp] theorem setRecov_recov (v : Byte) : (setRecov v s).recov = v := rfl
@[simp] theorem setRecov_err (v : Byte) : (setRecov v s).err = s.err := rfl
@[simp] theorem setRecov_flip (v : Byte) : (setRecov v s).flip = s.flip := rfl
@[simp] theorem setRecov_valid (v : Byte) : (setRecov v s).valid = s.valid := rfl
@[simp] theorem setRecov_errcode (v : Byte) : (setRecov v s).errcode = s.errcode := rfl
@[simp] theorem setRecov_pending (v : Byte) : (setRecov v s).pending = s.pending := rfl
@[simp] theorem setRecov_returned (v : Byte) : (setRecov v s).returned = s.returned := rfl

@[simp] theorem setFlip_cover (v : Bool) : (setFlip v s).cover = s.cover := rfl
@[simp] theorem setFlip_secret (v : Bool) : (setFlip v s).secret = s.secret := rfl
@[simp] theorem setFlip_win (v : Bool) : (setFlip v s).win = s.win := rfl
@[simp] theorem setFlip_syn (v : Bool) : (setFlip v s).syn = s.syn := rfl
@[simp] theorem setFlip_idx (v : Bool) : (setFlip v s).idx = s.idx := rfl
@[simp] theorem setFlip_out (v : Bool) : (setFlip v s).out = s.out := rfl
@[simp] theorem setFlip_recov (v : Bool) : (setFlip v s).recov = s.recov := rfl
@[simp] theorem setFlip_err (v : Bool) : (setFlip v s).err = s.err := rfl
@[simp] theorem setFlip_flip (v : Bool) : (setFlip v s).flip = v := rfl
@[simp] theorem setFlip_valid (v : Bool) : (setFlip v s).valid = s.valid := rfl
@[simp] theorem setFlip_errcode (v : Bool) : (setFlip v s).errcode = s.errcode := rfl
@[simp] theorem setFlip_pending (v : Bool) : (setFlip v s).pending = s.pending := rfl
@[simp] theorem setFlip_returned (v : Bool) : (setFlip v s).returned = s.returned := rfl

@[simp] theorem setValid_cover (v : Bool) : (setValid v s).cover = s.cover := rfl
@[simp] theorem setValid_secret (v : Bool) : (setValid v s).secret = s.secret := rfl
@[simp] theorem setValid_win (v : Bool) : (setValid v s).win = s.win := rfl
@[simp] theorem setValid_syn (v : Bool) : (setValid v s).syn = s.syn := rfl
@[simp] theorem setValid_idx (v : Bool) : (setValid v s).idx = s.idx := rfl
@[simp] theorem setValid_out (v : Bool) : (setValid v s).out = s.out := rfl
@[simp] theorem setValid_recov (v : Bool) : (setValid v s).recov = s.recov := rfl
@[simp] theorem setValid_err (v : Bool) : (setValid v s).err = s.err := rfl
@[simp] theorem setValid_flip (v : Bool) : (setValid v s).flip = s.flip := rfl
@[simp] theorem setValid_valid (v : Bool) : (setValid v s).valid = v := rfl
@[simp] theorem setValid_errcode (v : Bool) : (setValid v s).errcode = s.errcode := rfl
@[simp] theorem setValid_pending (v : Bool) : (setValid v s).pending = s.pending := rfl
@[simp] theorem setValid_returned (v : Bool) : (setValid v s).returned = s.returned := rfl

@[simp] theorem giveHost_cover (v : Word) : (giveHost v s).cover = s.cover := rfl
@[simp] theorem giveHost_secret (v : Word) : (giveHost v s).secret = s.secret := rfl
@[simp] theorem giveHost_win (v : Word) : (giveHost v s).win = s.win := rfl
@[simp] theorem giveHost_syn (v : Word) : (giveHost v s).syn = s.syn := rfl
@[simp] theorem giveHost_idx (v : Word) : (giveHost v s).idx = s.idx := rfl
@[simp] theorem giveHost_out (v : Word) : (giveHost v s).out = s.out := rfl
@[simp] theorem giveHost_recov (v : Word) : (giveHost v s).recov = s.recov := rfl
@[simp] theorem giveHost_err (v : Word) : (giveHost v s).err = s.err := rfl
@[simp] theorem giveHost_flip (v : Word) : (giveHost v s).flip = s.flip := rfl
@[simp] theorem giveHost_valid (v : Word) : (giveHost v s).valid = s.valid := rfl
@[simp] theorem giveHost_errcode (v : Word) : (giveHost v s).errcode = s.errcode := rfl
@[simp] theorem giveHost_pending (v : Word) : (giveHost v s).pending = s.pending := rfl
@[simp] theorem giveHost_returned (v : Word) : (giveHost v s).returned = v :: s.returned := rfl

@[simp] theorem clearError_cover : (clearError s).cover = s.cover := rfl
@[simp] theorem clearError_secret : (clearError s).secret = s.secret := rfl
@[simp] theorem clearError_win : (clearError s).win = s.win := rfl
@[simp] theorem clearError_syn : (clearError s).syn = s.syn := rfl
@[simp] theorem clearError_idx : (clearError s).idx = s.idx := rfl
@[simp] theorem clearError_out : (clearError s).out = s.out := rfl
@[simp] theorem clearError_recov : (clearError s).recov = s.recov := rfl
@[simp] theorem clearError_err : (clearError s).err = false := rfl
@[simp] theorem clearError_flip : (clearError s).flip = s.flip := rfl
@[simp] theorem clearError_valid : (clearError s).valid = s.valid := rfl
@[simp] theorem clearError_errcode : (clearError s).errcode = 0 := rfl
@[simp] theorem clearError_pending : (clearError s).pending = s.pending := rfl
@[simp] theorem clearError_returned : (clearError s).returned = s.returned := rfl

@[simp] theorem resetEngine_cover : (resetEngine s).cover = 0 := rfl
@[simp] theorem resetEngine_secret : (resetEngine s).secret = 0 := rfl
@[simp] theorem resetEngine_win : (resetEngine s).win = 0 := rfl
@[simp] theorem resetEngine_syn : (resetEngine s).syn = 0 := rfl
@[simp] theorem resetEngine_idx : (resetEngine s).idx = 0 := rfl
@[simp] theorem resetEngine_out : (resetEngine s).out = 0 := rfl
@[simp] theorem resetEngine_recov : (resetEngine s).recov = 0 := rfl
@[simp] theorem resetEngine_err : (resetEngine s).err = false := rfl
@[simp] theorem resetEngine_flip : (resetEngine s).flip = false := rfl
@[simp] theorem resetEngine_valid : (resetEngine s).valid = false := rfl
@[simp] theorem resetEngine_errcode : (resetEngine s).errcode = 0 := rfl
@[simp] theorem resetEngine_pending : (resetEngine s).pending = s.pending := rfl
@[simp] theorem resetEngine_returned : (resetEngine s).returned = s.returned := rfl

@[simp] theorem raiseError_cover (e : ErrorCode) : (raiseError e s).cover = s.cover := by unfold raiseError; split <;> rfl
@[simp] theorem raiseError_secret (e : ErrorCode) : (raiseError e s).secret = s.secret := by unfold raiseError; split <;> rfl
@[simp] theorem raiseError_win (e : ErrorCode) : (raiseError e s).win = s.win := by unfold raiseError; split <;> rfl
@[simp] theorem raiseError_syn (e : ErrorCode) : (raiseError e s).syn = s.syn := by unfold raiseError; split <;> rfl
@[simp] theorem raiseError_idx (e : ErrorCode) : (raiseError e s).idx = s.idx := by unfold raiseError; split <;> rfl
@[simp] theorem raiseError_out (e : ErrorCode) : (raiseError e s).out = s.out := by unfold raiseError; split <;> rfl
@[simp] theorem raiseError_recov (e : ErrorCode) : (raiseError e s).recov = s.recov := by unfold raiseError; split <;> rfl
@[simp] theorem raiseError_flip (e : ErrorCode) : (raiseError e s).flip = s.flip := by unfold raiseError; split <;> rfl
@[simp] theorem raiseError_valid (e : ErrorCode) : (raiseError e s).valid = s.valid := by unfold raiseError; split <;> rfl
@[simp] theorem raiseError_pending (e : ErrorCode) : (raiseError e s).pending = s.pending := by unfold raiseError; split <;> rfl
@[simp] theorem raiseError_returned (e : ErrorCode) : (raiseError e s).returned = s.returned := by unfold raiseError; split <;> rfl
@[simp] theorem raiseError_err (e : ErrorCode) : (raiseError e s).err = true := by unfold raiseError; split <;> simp_all
@[simp] theorem raiseError_errcode (e : ErrorCode) : (raiseError e s).errcode = if s.err then s.errcode else e.code := by unfold raiseError; split <;> rfl

end Sys2Proof.Machine
end

