-- ==== Sys2Proof/Laws/Bus.lean ====
section
/-! SUPPORT. What the shared operations of the bus can do, said once: which register an access reaches, what a command,
a write, an input and a step answer. -/

namespace Sys2Proof.Machine

/-- An access reaches a register exactly when it is 32 bits wide and at that register's offset. -/
theorem accessedReg_eq_some (width off : Nat) (r : Reg) :
    accessedReg width off = some r ↔ width = 32 ∧ off = r.offset := by
  constructor
  · intro h
    unfold accessedReg at h
    split at h
    · next hc =>
      have hr := List.find?_some h
      simp only [accessWellFormed, Bool.and_eq_true, decide_eq_true_eq] at hc
      exact ⟨hc.1.1.1, by simpa using (beq_iff_eq.mp hr).symm⟩
    · cases h
  · rintro ⟨rfl, rfl⟩
    cases r <;> decide

/-- A register access by its own offset is performed. -/
theorem accessedReg_offset (r : Reg) : accessedReg 32 r.offset = some r :=
  (accessedReg_eq_some _ _ _).mpr ⟨rfl, rfl⟩

/-- An access reaches no register exactly when R37 or R35 turns it away. -/
theorem accessedReg_eq_none (width off : Nat) : accessedReg width off = none ↔ accessRefused width off := by
  constructor
  · intro h
    by_contra hc
    simp only [accessRefused, not_or, not_and, Nat.not_lt, Nat.not_le] at hc
    obtain ⟨hw, hm, hle, hres⟩ := hc
    have hlt : off < 0x28 := by omega
    have hall : ∀ off < 0x28, off % 4 = 0 → (accessedReg 32 off).isSome = true := by decide
    have := hall off hlt (by omega)
    rw [show width = 32 by omega] at h
    simp [h] at this
  · intro h
    unfold accessedReg
    split
    · next hc =>
      simp only [accessWellFormed, reservedOffset, Bool.and_eq_true, decide_eq_true_eq, Bool.not_eq_true',
        Bool.and_eq_false_iff, decide_eq_false_iff_not] at hc
      unfold accessRefused at h
      omega
    · rfl

/-- A command always answers a next state, and leaves the error record and the host's side as they are. -/
theorem exec_next (i : Instr) (s : State) :
    ∃ t, exec i s = .next t ∧ t.err = s.err ∧ t.errcode = s.errcode ∧ t.pending = s.pending ∧
      t.returned = s.returned := by
  cases i <;> exact ⟨_, rfl, rfl, rfl, rfl, rfl⟩

/-- Everything a `CMD` write can do: run the command the word encodes, or record `ILLEGAL_CMD`. -/
theorem execute_cases (v : Word) (s : State) :
    (∃ i, decode v = .ok i ∧ execute v s = exec i s) ∨
    ((∃ e, decode v = .error e) ∧ execute v s = .next (raiseError .illegalCmd s)) := by
  unfold execute
  cases h : decode v with
  | ok i => exact .inl ⟨i, rfl, rfl⟩
  | error e => exact .inr ⟨⟨e, rfl⟩, rfl⟩

/-- A write of a register answers a next state with the host's side unchanged. -/
theorem writeReg_next (r : Reg) (v : Word) (s : State) :
    ∃ t, writeReg r v s = .next t ∧ t.pending = s.pending ∧ t.returned = s.returned := by
  cases r <;> simp only [writeReg]
  case cmd =>
    rcases execute_cases v s with ⟨i, -, h⟩ | ⟨-, h⟩
    · obtain ⟨t, ht, -, -, hp, hr⟩ := exec_next i s
      exact ⟨t, h.trans ht, hp, hr⟩
    · exact ⟨_, h, by simp, by simp⟩
  case status => exact ⟨_, rfl, by split <;> rfl, by split <;> rfl⟩
  all_goals exact ⟨_, rfl, by simp, by simp⟩

/-- A bus write answers a next state with the host's side unchanged. -/
theorem busWrite_next (width off : Nat) (v : Word) (s : State) :
    ∃ t, busWrite width off v s = .next t ∧ t.pending = s.pending ∧ t.returned = s.returned := by
  unfold busWrite
  split
  · exact writeReg_next _ v s
  · exact ⟨_, rfl, by simp, by simp⟩

/-- A bus read leaves the host's side unchanged. -/
theorem busRead_host (width off : Nat) (s : State) :
    (busRead width off s).2.pending = s.pending ∧ (busRead width off s).2.returned = s.returned := by
  unfold busRead
  split <;> simp

/-- Every input is performed and answers a next state; the rest of the host's list stays. -/
theorem perform_next (i : Input) (s : State) : ∃ t, perform i s = .next t ∧ t.pending = s.pending := by
  cases i with
  | read width off => exact ⟨_, rfl, by simp [busRead_host]⟩
  | write width off v =>
    obtain ⟨t, h, hp, -⟩ := busWrite_next width off v s
    exact ⟨t, h, hp⟩
  | reset => exact ⟨_, rfl, rfl⟩

/-- Everything an input can do: reset, run a command, write a register other than `CMD`, or leave the registers and data
flags as they are (a read, an access not performed, an illegal word). -/
theorem perform_cases (x : Input) (s t : State) (h : perform x s = .next t) :
    x = .reset ∨
    (∃ i v, x = .write 32 Reg.cmd.offset v ∧ decode v = .ok i ∧ exec i s = .next t) ∨
    (∃ r v, r ≠ .cmd ∧ x = .write 32 r.offset v ∧ writeReg r v s = .next t) ∨
    State.sameData t s := by
  cases x with
  | reset => exact .inl rfl
  | read width off =>
    simp only [perform, busRead] at h
    split at h <;> (cases h; simp [State.sameData])
  | write width off v =>
    simp only [perform, busWrite] at h
    split at h
    · next r ha =>
      obtain ⟨rfl, rfl⟩ := (accessedReg_eq_some _ _ _).mp ha
      by_cases hr : r = .cmd
      · subst hr
        rcases execute_cases v s with ⟨i, hd, he⟩ | ⟨-, he⟩
        · exact .inr (.inl ⟨i, v, rfl, hd, he.symm.trans h⟩)
        · rw [writeReg, he] at h; cases h; simp [State.sameData]
      · exact .inr (.inr (.inl ⟨r, v, hr, rfl, h⟩))
    · cases h; simp [State.sameData]

/-- What a step does: nothing when no input is left, otherwise the first input, performed completely. -/
theorem step_cases (s : State) :
    (s.pending = [] ∧ step s = .next s) ∨
    (∃ i rest, s.pending = i :: rest ∧ step s = perform i { s with pending := rest }) := by
  unfold step performNext
  cases h : s.pending with
  | nil => exact .inl ⟨rfl, by simp⟩
  | cons i rest => exact .inr ⟨i, rest, rfl, by simp⟩

/-- One list of inputs after another is the two joined. -/
theorem performAll_append (l₁ l₂ : List Input) (s t : State) (h : performAll l₁ s = .next t) :
    performAll (l₁ ++ l₂) s = performAll l₂ t := by
  induction l₁ generalizing s with
  | nil => cases h; rfl
  | cons x l ih =>
    obtain ⟨u, hu, -⟩ := perform_next x s
    simp only [List.cons_append, performAll, hu] at h ⊢
    exact ih u h

/-- A host write of a register through the bus is the write of that register. -/
theorem busWrite_offset (r : Reg) (v : Word) (s : State) : busWrite 32 r.offset v s = writeReg r v s := by
  simp [busWrite, accessedReg_offset]

/-- A host read of a register through the bus returns it and changes nothing. -/
theorem busRead_offset (r : Reg) (s : State) : busRead 32 r.offset s = (readReg r s, s) := by
  simp [busRead, accessedReg_offset]

/-- The word of a command, written to `CMD`, runs it. -/
theorem writeReg_cmd_encode (i : Instr) (s : State) : writeReg .cmd (encode i) s = exec i s := by
  cases i <;> rfl

end Sys2Proof.Machine
end

