-- ==== Sys2Proof/Laws/Codec.lean ====
section
/-! SUPPORT. The small lemmas of the pure functions: one bit of a gathered window and of a scattered word, the corrector
by cases, GF(2) sums of exclusive ORs, one component of a product. -/

namespace Sys2Proof.Machine

/-- The flag of an index says whether it is not 0. -/
theorem indexFlag_eq (i : Nibble) : indexFlag i = decide (i ≠ 0#4) := by revert i; decide

/-- The corrector by cases of the index. -/
theorem flipAt_eq (w : Window) (i : Nibble) :
    flipAt w i = if i = 0#4 then w else w ^^^ (1#15 <<< (15 - i.toNat)) := by
  have h : indexIsValid i.toNat Config.windowLength = decide (i ≠ 0#4) := indexFlag_eq i
  unfold flipAt
  by_cases hi : i = 0#4 <;> simp [h, hi]

/-- One bit of a gathered window, by the pixel it comes from (R71). -/
theorem getLsbD_gather (c : Word) (j : Nat) (hj : j < 15) :
    (gather c).getLsbD j =
      if j < 4 then c.getLsbD (24 + j) else if j < 8 then c.getLsbD (12 + j) else if j < 12 then c.getLsbD j
      else c.getLsbD (j - 12) := by
  simp only [gather, BitVec.getLsbD_append, BitVec.getLsbD_extractLsb']
  interval_cases j <;> simp

/-- One bit of a scattered word: a window bit in the four low fields, the cover's own bit elsewhere (R73). -/
theorem getLsbD_scatter (c : Word) (w : Window) (j : Nat) (hj : j < 32) :
    (scatter c w).getLsbD j =
      if j < 3 then w.getLsbD (12 + j) else if j < 8 then c.getLsbD j else if j < 12 then w.getLsbD j
      else if j < 16 then c.getLsbD j else if j < 20 then w.getLsbD (j - 12) else if j < 24 then c.getLsbD j
      else if j < 28 then w.getLsbD (j - 24) else c.getLsbD j := by
  simp only [scatter, BitVec.getLsbD_append, BitVec.getLsbD_extractLsb']
  interval_cases j <;> simp

/-- A sum over GF(2) of exclusive ORs is the exclusive OR of the sums. -/
theorem xorOver_xor (n : Nat) (f g : Nat → Bool) :
    xorOver n (fun p => xor (f p) (g p)) = xor (xorOver n f) (xorOver n g) := by
  induction n with
  | zero => rfl
  | succ n ih =>
    simp only [xorOver, ih]
    cases xorOver n f <;> cases xorOver n g <;> cases f (n + 1) <;> cases g (n + 1) <;> rfl

/-- One component of a product is the dot product with its row, row 1 at bit 3 (R58, R19). -/
theorem getLsbD_multiplyWith (H : Nat → Nat → Bool) (w : Window) (r : Nat) (h1 : 1 ≤ r) (h2 : r ≤ 4) :
    (multiplyWith H w).getLsbD (4 - r) = dotRow H r w := by
  unfold multiplyWith
  simp only [BitVec.getLsbD_append, BitVec.getLsbD_ofBool]
  interval_cases r <;> simp

end Sys2Proof.Machine
end

