-- ==== Sys2Proof/Laws/Grid.lean ====
section
/-! SUPPORT. Reading a grid after writing one pixel, what a write keeps, and which blocks the walk visits. -/

namespace Sys2Proof.Machine

@[simp] theorem Grid.set_width (g : Grid) (x y : Nat) (p : Pixel) : (g.set x y p).width = g.width := by
  unfold Grid.set; split <;> rfl

@[simp] theorem Grid.set_height (g : Grid) (x y : Nat) (p : Pixel) : (g.set x y p).height = g.height := by
  unfold Grid.set; split <;> rfl

@[simp] theorem Grid.set_inside (g : Grid) (x y a b : Nat) (p : Pixel) :
    (g.set x y p).inside a b = g.inside a b := by
  simp [Grid.inside]

/-- Writing a pixel keeps the grid well-formed. -/
theorem Grid.set_wf (g : Grid) (x y : Nat) (p : Pixel) (h : g.wf = true) : (g.set x y p).wf = true := by
  unfold Grid.set; split
  · simpa [Grid.wf] using h
  · exact h

/-- A blank grid is well-formed. -/
theorem Grid.blank_wf (w h : Nat) (p : Pixel) : (Grid.blank w h p).wf = true := by simp [Grid.blank, Grid.wf]

/-- Two coordinates inside a grid are stored at the same place only if they are the same coordinate. -/
theorem index_injective {w x y x' y' : Nat} (hx : x < w) (hx' : x' < w) (h : y * w + x = y' * w + x') :
    x = x' ∧ y = y' := by
  have hw : 0 < w := by omega
  have hm : x = x' := by
    have := congrArg (· % w) h
    simpa [Nat.add_mod, Nat.mod_eq_of_lt hx, Nat.mod_eq_of_lt hx'] using this
  subst hm
  exact ⟨rfl, Nat.eq_of_mul_eq_mul_right hw (by omega)⟩

/-- Reading a pixel after writing one: the written pixel at its coordinate, the old one elsewhere. -/
theorem Grid.get_set (g : Grid) (x y x' y' : Nat) (p : Pixel) (hwf : g.wf = true) :
    (g.set x y p).get x' y' = if x' = x ∧ y' = y ∧ g.inside x y = true then p else g.get x' y' := by
  by_cases hi : g.inside x y = true
  · have hb := hi
    simp only [Grid.inside, Bool.and_eq_true, decide_eq_true_eq] at hb
    simp only [Grid.wf, beq_iff_eq] at hwf
    by_cases h2 : g.inside x' y' = true
    · have hb' := h2
      simp only [Grid.inside, Bool.and_eq_true, decide_eq_true_eq] at hb'
      have hlt : y * g.width + x < g.pixels.length := by rw [hwf]; nlinarith
      unfold Grid.get
      rw [Grid.set_inside, if_pos h2, if_pos h2, Grid.set_width]
      unfold Grid.set
      rw [if_pos hi]
      by_cases he : x' = x ∧ y' = y
      · obtain ⟨rfl, rfl⟩ := he
        simp [List.getD_eq_getElem?_getD, hlt, hi]
      · have hne : y * g.width + x ≠ y' * g.width + x' := fun h =>
          he ⟨(index_injective hb.1 hb'.1 h).1.symm, (index_injective hb.1 hb'.1 h).2.symm⟩
        rw [if_neg (fun h => he ⟨h.1, h.2.1⟩)]
        simp [List.getD_eq_getElem?_getD, List.getElem?_set_ne hne]
    · have hne : ¬ (x' = x ∧ y' = y ∧ g.inside x y = true) := by
        rintro ⟨rfl, rfl, h⟩; exact h2 h
      unfold Grid.get
      rw [Grid.set_inside, if_neg h2, if_neg h2, if_neg hne]
  · unfold Grid.set
    rw [if_neg hi, if_neg (fun h => hi h.2.2)]

/-- Two well-formed grids of one size that read the same everywhere are the same grid. -/
theorem Grid.eq_of_get (g h : Grid) (hg : g.wf = true) (hh : h.wf = true) (hw : g.width = h.width)
    (ht : g.height = h.height) (hget : ∀ x y, g.get x y = h.get x y) : g = h := by
  obtain ⟨w, t, ps⟩ := g
  obtain ⟨w', t', qs⟩ := h
  obtain rfl : w = w' := hw
  obtain rfl : t = t' := ht
  simp only [Grid.wf, beq_iff_eq] at hg hh
  congr 1
  apply List.ext_getElem (by omega)
  intro i hi hi'
  have hpos : 0 < w := by
    rcases Nat.eq_zero_or_pos w with rfl | hw
    · omega
    · exact hw
  have hx : i % w < w := Nat.mod_lt _ hpos
  have hy : i / w < t := (Nat.div_lt_iff_lt_mul hpos).mpr (by rw [Nat.mul_comm]; omega)
  have hxy : i / w * w + i % w = i := by rw [Nat.mul_comm]; exact Nat.div_add_mod i w
  simpa [Grid.get, Grid.inside, hx, hy, hxy, List.getD_eq_getElem?_getD, hi, hi'] using hget (i % w) (i / w)

/-- The blocks the walk visits. -/
theorem mem_walkOrder (b : RowBound) (w h x k : Nat) :
    (x, k) ∈ walkOrder b w h ↔ x < w ∧ k < blocksPerColumn b h := by
  simp [walkOrder]

end Sys2Proof.Machine
end

