-- ==== Sys2Proof/Laws/ParallelWalk.lean ====
section
/-! SUPPORT. What a platform access and a turn of a stream can do, said once: every turn answers a next walk, an access
performs one input of one instance, and every other instance stays as it is. -/

namespace Sys2Proof.Machine

@[simp] theorem BusRequest.atBase_addr (base : Nat) (q : BusRequest) : (q.atBase base).addr = base + q.addr := by
  cases q <;> rfl

/-- The instance at `base` sees a request issued at `base` plus an offset as an access at that offset. -/
@[simp] theorem BusRequest.atBase_toInput (base : Nat) (q : BusRequest) :
    (q.atBase base).toInput base = q.toInput 0 := by
  cases q <;> simp [BusRequest.atBase, BusRequest.toInput]

@[simp] theorem readRequest_toInput (r : Reg) : (readRequest r).toInput 0 = .read 32 r.offset := rfl

@[simp] theorem writeRequest_toInput (r : Reg) (v : Word) : (writeRequest r v).toInput 0 = .write 32 r.offset v := rfl

/-- Every access of a block lies in the 64-byte window. -/
theorem WalkJob.blockRequests_addr (job : WalkJob) (b : Nat × Nat) (q : BusRequest) (h : q ∈ job.blockRequests b) :
    q.addr < 64 := by
  have hw : ∀ r v, (writeRequest r v).addr < 64 := fun r v => by
    cases r <;> simp [BusRequest.addr, writeRequest, Reg.offset]
  have hr : ∀ r, (readRequest r).addr < 64 := fun r => by cases r <;> decide
  cases job <;>
    simp only [WalkJob.blockRequests, WalkJob.channelRequests, List.mem_append, List.mem_cons, List.not_mem_nil,
      or_false] at h <;>
    casesm* _ ∨ _ <;> subst_vars <;> first | exact hw _ _ | exact hr _

/-- The address lies in an instance's window exactly when it is one of the 64 from its base. -/
theorem EngineInst.owns_iff (i : EngineInst) (addr : Nat) : i.owns addr = true ↔ i.base ≤ addr ∧ addr < i.base + 64 := by
  simp [EngineInst.owns]

/-- A step always answers a next state. -/
theorem step_next (s : State) : ∃ t, step s = .next t := by
  rcases step_cases s with ⟨-, h⟩ | ⟨i, rest, -, h⟩
  · exact ⟨_, h⟩
  · obtain ⟨t, ht, -⟩ := perform_next i { s with pending := rest }
    exact ⟨t, h.trans ht⟩

/-- With nothing else pending, the access that arrives is the one the next step performs. -/
theorem step_arrive (x : Input) (s : State) (h : s.pending = []) : step (arrive x s) = perform x s := by
  cases s
  subst h
  rfl

/-- A request inside the window of one of several disjoint windows is routed to that instance. -/
theorem routeIn_owner (q : BusRequest) (insts : List EngineInst) (k : Nat) (i : EngineInst)
    (haligned : ∀ a ∈ insts, a.base % 64 = 0) (hdistinct : (insts.map (·.base)).Pairwise (· ≠ ·))
    (hk : insts[k]? = some i) (howns : i.owns q.addr = true) :
    routeIn q insts = some (insts.set k { i with engine := arrive (q.toInput i.base) i.engine }) := by
  induction insts generalizing k with
  | nil => simp at hk
  | cons a rest ih =>
    simp only [List.map_cons, List.pairwise_cons] at hdistinct
    cases k with
    | zero =>
      obtain rfl : a = i := by simpa using hk
      simp [routeIn, howns]
    | succ k =>
      rw [List.getElem?_cons_succ] at hk
      have hmem := List.mem_of_getElem? hk
      have hother : ¬ a.owns q.addr = true := by
        rw [EngineInst.owns_iff] at *
        have ha := haligned a (by simp)
        have hi := haligned i (by simp [hmem])
        have hne := hdistinct.1 i.base (List.mem_map_of_mem hmem)
        omega
      simp [routeIn, hother, ih k (fun b hb => haligned b (by simp [hb])) hdistinct.2 hk]

/-- Changing one instance's engine keeps the platform well-formed. -/
theorem Platform.setEngine_wf (p : Platform) (k : Nat) (i : EngineInst) (e : State) (hk : p.insts[k]? = some i) :
    Platform.wf ⟨p.insts.set k { i with engine := e }⟩ = p.wf := by
  have hbase : (p.insts.set k { i with engine := e }).map (·.base) = p.insts.map (·.base) := by
    obtain ⟨hlt, rfl⟩ := List.getElem?_eq_some_iff.mp hk
    rw [List.map_set, show p.insts[k].base = (p.insts.map (·.base))[k]'(by simpa using hlt) by simp,
      List.set_getElem_self]
  have hall : ∀ l : List EngineInst, l.all (fun i => i.base % 64 == 0) = (l.map (·.base)).all (· % 64 == 0) := by
    intro l; rw [List.all_map]; rfl
  simp only [Platform.wf, hall, hbase]

/-- What an access to an instance with nothing pending does: the instance performs exactly that access, and every other
instance is left as it is. -/
theorem Platform.accessInst_performs (p : Platform) (k : Nat) (i : EngineInst) (q : BusRequest) (e : State)
    (hwf : p.wf = true) (hk : p.insts[k]? = some i) (hidle : i.engine.pending = []) (hq : q.addr < 64)
    (he : perform (q.toInput 0) i.engine = .next e) :
    p.accessInst k q = .next ⟨p.insts.set k { i with engine := e }⟩ := by
  simp only [Platform.wf, Bool.and_eq_true, List.all_eq_true, beq_iff_eq, decide_eq_true_eq] at hwf
  have howns : i.owns (q.atBase i.base).addr = true := by rw [EngineInst.owns_iff, BusRequest.atBase_addr]; omega
  have hlt : k < p.insts.length := (List.getElem?_eq_some_iff.mp hk).1
  have hissue := routeIn_owner (q.atBase i.base) p.insts k i hwf.1 hwf.2 hk howns
  unfold Platform.accessInst Platform.issue
  rw [hk]
  simp only [hissue, Option.map_some, BusRequest.atBase_toInput]
  simp only [Platform.stepInst, List.getElem?_set_self hlt, step_arrive _ _ hidle, he, List.set_set]

/-- A step of an instance always answers a next platform. -/
theorem Platform.stepInst_next (p : Platform) (k : Nat) : ∃ p', p.stepInst k = .next p' := by
  unfold Platform.stepInst
  cases p.insts[k]? with
  | none => exact ⟨p, rfl⟩
  | some i =>
    obtain ⟨e, he⟩ := step_next i.engine
    exact ⟨⟨p.insts.set k { i with engine := e }⟩, by simp [he]⟩

/-- An access through the platform always answers a next platform. -/
theorem Platform.accessInst_next (p : Platform) (k : Nat) (q : BusRequest) : ∃ p', p.accessInst k q = .next p' := by
  unfold Platform.accessInst
  split
  · exact ⟨p, rfl⟩
  · split
    · exact ⟨p, rfl⟩
    · exact Platform.stepInst_next _ k

/-- Everything a turn can do: nothing (no such stream), one access of the stream, or the end of its block. -/
theorem takeTurn_cases (job : WalkJob) (n : Nat) (w : ParallelWalk) :
    (w.streams[n]? = none ∧ takeTurn job n w = .next w) ∨
    (∃ st q rest p, w.streams[n]? = some st ∧ st.todo = q :: rest ∧ w.platform.accessInst st.inst q = .next p ∧
      takeTurn job n w = .next { w with platform := p, streams := w.streams.set n { st with todo := rest } }) ∨
    (∃ st, w.streams[n]? = some st ∧ st.todo = [] ∧ takeTurn job n w = .next (finishBlock job n st w)) := by
  unfold takeTurn
  cases hn : w.streams[n]? with
  | none => exact .inl ⟨rfl, rfl⟩
  | some st =>
    cases ht : st.todo with
    | nil => exact .inr (.inr ⟨st, rfl, ht, by simp [ht]⟩)
    | cons q rest =>
      obtain ⟨p, hp⟩ := w.platform.accessInst_next st.inst q
      exact .inr (.inl ⟨st, q, rest, p, rfl, ht, hp, by simp [ht, hp, andThen]⟩)

/-- A turn always answers a next walk. -/
theorem takeTurn_next (job : WalkJob) (n : Nat) (w : ParallelWalk) : ∃ w', takeTurn job n w = .next w' := by
  rcases takeTurn_cases job n w with ⟨-, h⟩ | ⟨_, _, _, _, -, -, -, h⟩ | ⟨_, -, -, h⟩ <;> exact ⟨_, h⟩

/-- Every schedule runs to its end. -/
theorem takeTurns_next (job : WalkJob) (schedule : List Nat) (w : ParallelWalk) :
    ∃ w', takeTurns job schedule w = .next w' := by
  induction schedule generalizing w with
  | nil => exact ⟨w, rfl⟩
  | cons n ns ih =>
    obtain ⟨w1, h1⟩ := takeTurn_next job n w
    obtain ⟨w2, h2⟩ := ih w1
    exact ⟨w2, by simp [takeTurns, andThen, h1, h2]⟩

/-- One schedule after another is the two joined. -/
theorem takeTurns_append (job : WalkJob) (s₁ s₂ : List Nat) (w : ParallelWalk) :
    takeTurns job (s₁ ++ s₂) w = andThen (takeTurns job s₁ w) (takeTurns job s₂) := by
  induction s₁ generalizing w with
  | nil => rfl
  | cons n ns ih =>
    obtain ⟨w1, h1⟩ := takeTurn_next job n w
    simp [takeTurns, andThen, h1, ih]

end Sys2Proof.Machine
end

