-- ==== Sys2Proof/Laws/PerInstr.lean ====
section
/-! SUPPORT. Facts stated for every command as syntax, one lemma per constructor. -/

namespace Sys2Proof.Laws.CommandWord

/-- The word of the command is well-formed (R51, R52) and decodes to it (R50). -/
def Statement (i : Instr) : Prop :=
  commandWordWellFormed (encode i) = true ∧ Sys2Proof.decode (encode i) = .ok i

theorem nop : Statement .nop := by unfold Statement; decide
theorem gather : Statement .gather := by unfold Statement; decide
theorem synd : Statement .synd := by unfold Statement; decide
theorem decode : Statement .decode := by unfold Statement; decide
theorem correct : Statement .correct := by unfold Statement; decide
theorem scatter : Statement .scatter := by unfold Statement; decide
theorem recover : Statement .recover := by unfold Statement; decide
theorem embed : Statement .embed := by unfold Statement; decide
theorem extract : Statement .extract := by unfold Statement; decide
theorem clear : Statement .clear := by unfold Statement; decide

end Sys2Proof.Laws.CommandWord
end

