-- ==== Sys2Proof/Machine/Assembler.lean ====
section
/-! DEFINITION. The text of host programs (30_encoding.md R55, R56): one statement per line, `;` starts a comment.
The lexical points R55 leaves open (spaces, the comma, the case of words that are no mnemonic) are in log entry 9. -/

namespace Sys2Proof.Machine

/-- A blank inside a line. -/
def isBlank (c : Char) : Bool := c == ' ' || c == '\t' || c == '\r'

/-- The characters of a line before its comment. -/
def beforeComment : List Char → List Char
  | [] => []
  | c :: cs => if c == ';' then [] else c :: beforeComment cs

/-- Closes the word read so far (kept last character first). -/
def closeWord (cur : List Char) (rest : List (List Char)) : List (List Char) :=
  if cur.isEmpty then rest else cur.reverse :: rest

/-- The words of a line; a comma is a word of its own. -/
def lineWords : List Char → List Char → List (List Char)
  | [], cur => closeWord cur []
  | c :: cs, cur =>
    if isBlank c then closeWord cur (lineWords cs [])
    else if c == ',' then closeWord cur ([','] :: lineWords cs [])
    else lineWords cs (c :: cur)

/-- The lines of a text. -/
def textLines : List Char → List Char → List (List Char)
  | [], cur => [cur.reverse]
  | c :: cs, cur => if c == '\n' then cur.reverse :: textLines cs [] else textLines cs (c :: cur)

/-- The value of a digit below `radix`. -/
def digitValue (radix : Nat) (c : Char) : Option Nat :=
  let n := c.toLower.toNat
  let d := if 48 ≤ n ∧ n ≤ 57 then some (n - 48) else if 97 ≤ n ∧ n ≤ 102 then some (n - 87) else none
  match d with
  | some v => if v < radix then some v else none
  | none => none

/-- Digits, most significant first, after the value `acc`. -/
def digitsValue (radix : Nat) : List Char → Nat → Option Nat
  | [], acc => some acc
  | c :: cs, acc =>
    match digitValue radix c with
    | some d => digitsValue radix cs (radix * acc + d)
    | none => none

/-- R55: "values are hexadecimal `0x...` or decimal". -/
def parseNat : List Char → Option Nat
  | '0' :: 'x' :: d :: ds => digitsValue 16 (d :: ds) 0
  | d :: ds => digitsValue 10 (d :: ds) 0
  | [] => none

/-- A value that fits a 32-bit word. -/
def parseWord (cs : List Char) : Option Word :=
  match parseNat cs with
  | some n => if n < 2 ^ 32 then some (BitVec.ofNat 32 n) else none
  | none => none

/-- The register names of 10_state.md. -/
def Reg.name : Reg → List Char
  | .id => ['I', 'D']
  | .status => ['S', 'T', 'A', 'T', 'U', 'S']
  | .cmd => ['C', 'M', 'D']
  | .cover => ['C', 'O', 'V', 'E', 'R']
  | .secret => ['S', 'E', 'C', 'R', 'E', 'T']
  | .win => ['W', 'I', 'N']
  | .syn => ['S', 'Y', 'N']
  | .idx => ['I', 'D', 'X']
  | .out => ['O', 'U', 'T']
  | .recov => ['R', 'E', 'C', 'O', 'V']

/-- The register of a name. -/
def parseReg (cs : List Char) : Option Reg := Reg.inOrder.find? (fun r => r.name == cs)

/-- The word in lower case: "Mnemonics are case-insensitive" (R55). -/
def lowerWord (cs : List Char) : List Char := cs.map Char.toLower

/-- The command of a mnemonic of R50, in any case. -/
def parseMnemonic (cs : List Char) : Option Instr :=
  (opcodeRows.find? (fun row => lowerWord row.1.toList == lowerWord cs)).map Prod.snd

/-- The place a `wr` or `rd` names: a register, or `@off`. -/
inductive Place where
  | reg (r : Reg)
  | raw (off : Nat)
  deriving DecidableEq, Repr

/-- R55: a register name, or `@` and a raw offset. -/
def parsePlace : List Char → Option Place
  | '@' :: ds => (parseNat ds).map .raw
  | cs => (parseReg cs).map .reg

/-- One statement from the words of its line. -/
def parseStmt (ws : List (List Char)) : Option Stmt :=
  match ws with
  | [k] =>
    if lowerWord k == ['c', 'l', 'r', 'e', 'r', 'r'] then some .clrerr
    else if lowerWord k == ['e', 'm', 'b', 'e', 'd', '.', 's', 'e', 'q'] then some .embedSeq
    else if lowerWord k == ['e', 'x', 't', 'r', 'a', 'c', 't', '.', 's', 'e', 'q'] then some .extractSeq
    else none
  | [k, a] =>
    if lowerWord k == ['r', 'd'] then
      match parsePlace a with
      | some (.reg r) => some (.rd r)
      | some (.raw off) => some (.rdAt off)
      | none => none
    else if lowerWord k == ['c', 'm', 'd'] then
      match parseMnemonic a with
      | some i => some (.cmd i)
      | none => (parseWord a).map .cmdWord
    else none
  | [k, a, [','], b] =>
    if lowerWord k == ['w', 'r'] then
      match parsePlace a, parseWord b with
      | some (.reg r), some v => some (.wr r v)
      | some (.raw off), some v => some (.wrAt off v)
      | _, _ => none
    else if lowerWord k == ['w', 'i', 'n', 'd', 'o', 'w'] then
      match parseWord a, parseWord b with
      | some c, some s => some (.window c s)
      | _, _ => none
    else none
  | _ => none

/-- The statements of a list of lines; a line without words is no statement. -/
def parseLines : List (List Char) → Option (List Stmt)
  | [] => some []
  | l :: ls =>
    let ws := lineWords (beforeComment l) []
    if ws.isEmpty then parseLines ls
    else
      match parseStmt ws, parseLines ls with
      | some s, some ss => some (s :: ss)
      | _, _ => none

/-- A program from its text. -/
def parseProgram (text : List Char) : Option (List Stmt) := parseLines (textLines text [])

end Sys2Proof.Machine
end

