-- ==== Sys2Proof/Tests/Slice0.lean ====
section
/-! SUPPORT. Tests. Expected values come from spec/95_test_vectors.md and from the examples and corner cases of the
instruction rules; words are written out from 30_encoding.md R50. The second half gives, for each statement with
hypotheses, a concrete input that meets them. -/

namespace Sys2Proof.Tests

open Sys2Proof.Machine

/-- The next state of an outcome. -/
def nextOf (o : Host.Outcome State Fault Refusal) : Option State :=
  match o with
  | .next s => some s
  | .fault _ => none
  | .refused _ => none

/-- One field after one input from a state. -/
def after {α : Type} (x : Input) (s : State) (f : State → α) : Option α := (nextOf (perform x s)).map f

/-- One field after one command from a state. -/
def afterCmd {α : Type} (i : Instr) (s : State) (f : State → α) : Option α := (nextOf (exec i s)).map f

/-- A state with some inputs set. -/
def st (cover : Word) (secret : Byte) (win : Window) (syn idx : Nibble) : State :=
  { State.reset with cover := cover, secret := secret, win := win, syn := syn, idx := idx }

/-- The state after an EMBED and a BAD_ACCESS (95 §2.4): `STATUS = 0x27`. -/
def st27 : State :=
  { st 0x12345678 0xA5 0x0640 0x4 0xE with out := 0x10345678, err := true, flip := true, valid := true, errcode := 2 }

/-! ### Well-formedness smoke: an ill-formed term for each check -/

theorem test_every_command_wellFormed (i : Instr) : i.wellFormed = true := by cases i <;> rfl
theorem test_reserved_bits_refused : reservedBitsZero 0x17 = false := by decide
theorem test_reserved_opcode_refused : opcodeAssigned 0xE = false := by decide
theorem test_ill_formed_word_refused : commandWordWellFormed 0x9 = false ∧ commandWordWellFormed 0x10 = false := by decide
theorem test_narrow_access_refused : accessWellFormed 8 0x0C = false := by decide
theorem test_misaligned_access_refused : accessWellFormed 32 0x0E = false := by decide
theorem test_access_above_window_refused : accessWellFormed 32 0x40 = false := by decide
theorem test_reserved_offset_refused : accessedReg 32 0x28 = none ∧ accessedReg 32 0x3C = none := by decide
theorem test_short_grid_refused : Grid.wf ⟨2, 2, [Pixel.black]⟩ = false := by decide
theorem test_unaligned_base_refused : Platform.wf ⟨[⟨32, State.reset⟩]⟩ = false := by decide
theorem test_shared_base_refused : Platform.wf ⟨[⟨64, State.reset⟩, ⟨64, State.reset⟩]⟩ = false := by decide

/-! ### Decoding (R50), every word bit by bit -/

theorem test_decode_nop : decode 0b00000000000000000000000000000000#32 = .ok .nop := by decide
theorem test_decode_gather : decode 0b00000000000000000000000000000001#32 = .ok .gather := by decide
theorem test_decode_synd : decode 0b00000000000000000000000000000010#32 = .ok .synd := by decide
theorem test_decode_decode : decode 0b00000000000000000000000000000011#32 = .ok .decode := by decide
theorem test_decode_correct : decode 0b00000000000000000000000000000100#32 = .ok .correct := by decide
theorem test_decode_scatter : decode 0b00000000000000000000000000000101#32 = .ok .scatter := by decide
theorem test_decode_recover : decode 0b00000000000000000000000000000110#32 = .ok .recover := by decide
theorem test_decode_embed : decode 0b00000000000000000000000000000111#32 = .ok .embed := by decide
theorem test_decode_extract : decode 0b00000000000000000000000000001000#32 = .ok .extract := by decide
theorem test_decode_clear : decode 0b00000000000000000000000000001111#32 = .ok .clear := by decide
theorem test_decode_reserved :
    decode 0x9#32 = .error .reservedOpcode ∧ decode 0xE#32 = .error .reservedOpcode ∧
    decode 0x17#32 = .error .reservedBits ∧ decode 0x80000000#32 = .error .reservedBits := by decide
theorem test_decodeTableWord : decodeTableWord 32 7 = some .embed ∧ decodeTableWord 32 9 = none := by decide
theorem test_fetchWord_runs_first :
    (nextOf (step (State.reset.withFetchWord 32 0xF))) = nextOf (exec .clear State.reset) := by decide

/-! ### The matrix engine (95 §2.1) -/

theorem test_synd_2468 : afterCmd .synd (st 0 0 0x2468 0 0) (·.syn) = some 0x8 := by decide
theorem test_synd_all_ones : afterCmd .synd (st 0 0 0x7FFF 5 0) (·.syn) = some 0x0 := by decide
theorem test_multiply_0C87 : multiply 0x0C87 = 0x5 ∧ multiply 0x0001 = 0xF ∧ multiply 0x4000 = 0x1 := by decide
theorem test_decode_A0 : afterCmd .decode (st 0 0xA0 0 3 0) (fun t => (t.idx, t.valid)) = some (0x9, true) := by decide
theorem test_decode_low_nibble_ignored :
    afterCmd .decode (st 0 0x0F 0 0 7) (fun t => (t.idx, t.valid)) = some (0x0, false) := by decide

/-! ### The codec (95 §2.2) -/

theorem test_correct_index_7 :
    afterCmd .correct (st 0 0 0x2468 0 7) (fun t => (t.win, t.flip)) = some (0x2568, true) := by decide
theorem test_correct_index_0 :
    afterCmd .correct { st 0 0 0x2468 0 0 with flip := true } (fun t => (t.win, t.flip)) = some (0x2468, false) := by
  decide
theorem test_embed_A5 :
    afterCmd .embed (st 0x12345678 0xA5 0 0 0) (fun t => (t.win, t.syn, t.idx, t.out, statusWord t)) =
      some (0x0640, 0x4, 0xE, 0x10345678, 0x06) := by decide
theorem test_embed_no_op :
    afterCmd .embed (st 0xFFFFFFFF 0x00 0 0 3) (fun t => (t.win, t.idx, t.out, statusWord t)) =
      some (0x7FFF, 0x0, 0xFFFFFFFF, 0x00) := by decide
theorem test_extract_10345678 :
    afterCmd .extract (st 0x10345678 0 0 0 9) (fun t => (t.win, t.syn, t.recov, t.idx)) =
      some (0x0640, 0xA, 0xA0, 9) := by decide
theorem test_extract_high_bits :
    afterCmd .extract (st 0x0F0F0F07 0 0 0 0) (fun t => (t.win, t.recov)) = some (0x7FFF, 0x00) := by decide

/-! ### Bit fields (95 §2.3) and control (95 §2.4) -/

theorem test_gather_12345678 : afterCmd .gather (st 0x12345678 0 0 0 0) (·.win) = some 0x0642 := by decide
theorem test_gather_pixel1_bit3 : afterCmd .gather (st 0x00000008 0 0x7FFF 0 0) (·.win) = some 0 := by decide
theorem test_scatter_2468 : afterCmd .scatter (st 0x12345678 0 0x2468 0 0) (·.out) = some 0x1836547A := by decide
theorem test_scatter_1234 : afterCmd .scatter (st 0xA5A5A5A5 0 0x1234 0 0) (·.out) = some 0xA4A3A2A1 := by decide
theorem test_recover_A : afterCmd .recover (st 0 0 0 0xA 0) (·.recov) = some 0xA0 := by decide
theorem test_nop_keeps_status : afterCmd .nop st27 id = some st27 := by decide
theorem test_clear_keeps_error : afterCmd .clear st27 (fun t => (t.cover, t.out, statusWord t)) = some (0, 0, 0x21) := by
  decide

/-! ### Accesses and errors (95 §2.5) -/

theorem test_read_id : (busRead 32 0x00 st27).1 = 0x53594E01 := by decide
theorem test_illegal_cmd : after (.write 32 0x08 0x9) State.reset statusWord = some 0x11 := by decide
theorem test_illegal_cmd_not_executed :
    after (.write 32 0x08 0x17) { st 0x12345678 0xA5 0 0 0 with err := true, errcode := 1 }
      (fun t => (t.out, statusWord t)) = some (0, 0x11) := by decide
theorem test_misaligned_write : after (.write 32 0x0E 0x7) State.reset statusWord = some 0x21 := by decide
theorem test_write_out : after (.write 32 0x20 0x5) State.reset (fun t => (t.out, statusWord t)) = some (0, 0x21) := by
  decide
theorem test_read_reserved :
    after (.read 32 0x28) { State.reset with err := true, errcode := 1 } (fun t => (t.returned, t.errcode)) =
      some ([0x00000000], 1) := by decide
theorem test_status_write_bit0_clear : after (.write 32 0x04 0xFFFFFFFE) st27 statusWord = some 0x27 := by decide
theorem test_status_write_bit0_set : after (.write 32 0x04 0x1) st27 statusWord = some 0x06 := by decide
theorem test_write_win_masks : after (.write 32 0x14 0xFFFFFFFF) State.reset (readReg .win) = some 0x00007FFF := by decide
theorem test_reset_input : after .reset st27 id = some State.reset := by decide

/-! ### Text, walk and platform -/

theorem test_parse_wr :
    parseProgram ['w', 'r', ' ', 'O', 'U', 'T', ',', ' ', '0', 'x', '5', ' ', ';', 'x'] = some [.wr .out 0x5] := by decide
theorem test_parse_raw_and_case :
    parseProgram ['r', 'd', ' ', '@', '0', 'x', '2', '8', '\n', 'c', 'm', 'd', ' ', 'e', 'M', 'B', 'e', 'd'] =
      some [.rdAt 0x28, .cmd .embed] := by decide
theorem test_parse_unknown : parseProgram ['j', 'm', 'p', ' ', '0'] = none := by decide
theorem test_blocks_inclusive : (List.range 14).map (blocksPerColumn .inclusive) = [0,0,0,0,1,1,1,1,2,2,2,2,3,3] := by
  decide
theorem test_blocks_exclusive : (List.range 14).map (blocksPerColumn .exclusive) = [0,0,0,0,0,1,1,1,1,2,2,2,2,3] := by
  decide
theorem test_byteView_cover :
    (byteView ⟨0x100, st27⟩ .cover) = [(0x10C, 0x78), (0x10D, 0x56), (0x10E, 0x34), (0x10F, 0x12)] := by decide

/-! ### Witnesses: inputs that meet the hypotheses of each statement -/

theorem witness_DecodeEncodeAgree :
    Instr.embed.wellFormed = true ∧ decode 0x7#32 = .ok .embed ∧
    ("EMBED", Instr.embed) ∈ opcodeRows ∧ rowMatches ("EMBED", .embed) 0x7#32 = true := by decide

theorem witness_IllegalWordOnlyRecordsError :
    16 ≤ (0x10#32).toNat ∧ 16 ≤ (0xFFFFFFFF#32).toNat ∧ (0x9 ≤ (0x9#32).toNat % 16 ∧ (0x9#32).toNat % 16 ≤ 0xE) ∧
    (0x9 ≤ (0xE#32).toNat % 16 ∧ (0xE#32).toNat % 16 ≤ 0xE) := by decide

/-- A state with one input pending. -/
def pend (x : Input) (s : State) : State := { s with pending := [x] }

theorem witness_StepRunsDecodedCommand :
    (pend (.write 32 0x08 0x7) st27).pending = .write 32 0x08 0x7 :: [] ∧ decode 0x7#32 = .ok .embed := by decide
theorem witness_StepWithoutAccessIsIdle : State.reset.pending = [] := by decide
theorem witness_StepConsumesOneAccess :
    (pend (.read 32 0x00) st27).pending = .read 32 0x00 :: [] ∧ (pend .reset st27).pending = .reset :: [] ∧
    (pend (.write 8 0x3F 0x7) st27).pending = .write 8 0x3F 0x7 :: [] := by decide
theorem witness_RefusedAccessIgnoresData :
    ((8 : Nat) ≠ 32) ∧ (0x0E % 4 ≠ 0) ∧ (0x3C < 0x40) ∧ (0x28 ≤ 0x28 ∧ 0x28 ≤ 0x3C) ∧ (0x28 ≤ 0x3C ∧ 0x3C ≤ 0x3C) := by
  decide
theorem witness_ErroneousInputHasNoOtherEffect :
    (Input.read 32 0x28).isBadAccess ∧ (Input.read 16 0x00).isBadAccess ∧ (Input.write 32 0x24 5).isBadAccess ∧
    (Input.write 32 0x08 0x10).isIllegalCmd ∧ (Input.write 32 0x08 0xE).isIllegalCmd := by
  simp [Input.isBadAccess, Input.isIllegalCmd, accessRefused]
theorem witness_ErrorRecordAfterAnyInput :
    Input.reset.clearsErrors ∧ (Input.write 32 0x04 0x1).clearsErrors ∧ (Input.write 32 0x20 5).isBadAccess ∧
    (Input.write 32 0x08 0x9).isIllegalCmd ∧
    (¬ (Input.write 32 0x04 0x2).clearsErrors ∧ ¬ (Input.write 32 0x04 0x2).isBadAccess ∧
      ¬ (Input.write 32 0x04 0x2).isIllegalCmd) := by
  simp [Input.clearsErrors, Input.isBadAccess, Input.isIllegalCmd, accessRefused]
theorem witness_ErrorsDoNotBlock :
    st27.err = true ∧ (Input.read 32 0x3C).isBadAccess ∧ Input.read 32 0x3C ≠ .read 32 0x04 := by
  simp [st27, Input.isBadAccess, accessRefused]
theorem witness_OnlyStatusWriteOrResetClearsError :
    st27.err = true ∧ (nextOf (step (pend (.write 32 0x04 0x1) st27))).map (·.err) = some false ∧
    (nextOf (step (pend (.write 32 0x04 0x2) st27))).map (·.err) = some true := by decide
theorem witness_EveryStepKeepsInvariant :
    State.Inv st27 ∧ (nextOf (step (pend (.write 32 0x08 0x6) st27))).isSome = true := by
  unfold State.Inv; decide
theorem witness_SyndMultipliesTheWindow :
    (st 0 0 0 0 0).win = 0#15 ∧ (st 0 0 0x7FFF 0 0).win = 0x7FFF#15 ∧ (st 0 0 0x4000 0 0).win = 1#15 <<< (15 - 1) ∧
    (st 0 0 0x0001 0 0).win = 1#15 <<< (15 - 15) := by decide
theorem witness_EmbedWritesAllStages :
    ((0x00 : Byte).extractLsb' 4 4 ^^^ multiply (gather 0xFFFFFFFF) = 0#4) ∧
    ((0xA5 : Byte).extractLsb' 4 4 ^^^ multiply (gather 0x12345678) ≠ 0#4) := by decide
theorem witness_CommandFrames :
    (nextOf (exec .synd st27)).isSome = true ∧ Instr.synd ≠ .clear ∧
    Instr.synd ∉ [Instr.gather, .correct, .embed, .extract, .clear] ∧
    Instr.gather ∉ [Instr.synd, .embed, .extract, .clear] ∧ Instr.synd ∉ [Instr.decode, .embed, .clear] ∧
    Instr.synd ∉ [Instr.scatter, .embed, .clear] ∧ Instr.synd ∉ [Instr.recover, .extract, .clear] ∧
    Instr.synd ∉ [Instr.correct, .embed, .clear] := by decide

/-- A step with one input pending changes a field. -/
def changes {α : Type} [DecidableEq α] (x : Input) (s : State) (f : State → α) : Bool :=
  match nextOf (step (pend x s)) with
  | some t => f t != f s
  | none => false

theorem witness_CoverAndSecretWriters :
    changes (.write 32 0x0C 5) st27 (·.cover) = true ∧ changes .reset st27 (·.secret) = true ∧
    changes (.write 32 0x08 0xF) st27 (·.cover) = true := by decide
theorem witness_WindowSyndromeIndexWriters :
    changes (.write 32 0x08 0x1) st27 (·.win) = true ∧ changes (.write 32 0x08 0x2) st27 (·.syn) = true ∧
    changes (.write 32 0x08 0x3) (st 0 0xA0 0 3 0) (·.idx) = true := by decide
theorem witness_ResultAndFlagWriters :
    changes (.write 32 0x08 0x5) (st 0x12345678 0 0x2468 0 0) (·.out) = true ∧
    changes (.write 32 0x08 0x6) st27 (·.recov) = true ∧ changes (.write 32 0x08 0x4) (st 0 0 0 0 7) (·.flip) = true ∧
    changes (.write 32 0x08 0x3) (st 0 0xA0 0 3 0) (·.valid) = true := by decide
theorem witness_FlipAndValidAfterEveryCommand : (0x1C : Nat) ≠ 0x08 ∧ (0x3D : Nat) ≠ 0x08 := by decide
theorem witness_HostWriteThenReadMasksToWidth :
    ((0x1C, 0x0000000F#32) : Nat × Word) ∈ [(0x0C, 0xFFFFFFFF#32), (0x10, 0x000000FF#32), (0x14, 0x00007FFF#32),
      (0x18, 0x0000000F#32), (0x1C, 0x0000000F#32)] := by decide
theorem witness_positions : (1 ≤ 1 ∧ 1 ≤ 15) ∧ (1 ≤ 15 ∧ 15 ≤ 15) ∧ (4 ≤ 4 ∧ 4 ≤ 7) ∧ (8 ≤ 11 ∧ 11 ≤ 11) ∧ (12 ≤ 15) := by
  decide
theorem witness_ParityMatrixIsForced (r k : Nat) (_ : 1 ≤ r) (_ : r ≤ 4) (_ : 1 ≤ k) (_ : k ≤ 15) :
    parityMatrix r k = (k >>> (4 - r)).testBit 0 := rfl
theorem witness_MatrixEmbeddingProperties : multiply 0x2468 = 0x8 := by decide
theorem witness_FlipChangesOnlyTheIndexedPosition : (0 : Nibble) = 0#4 ∧ (15 : Nibble) ≠ 0#4 := by decide
theorem witness_BlocksOfAColumn : 8 % 4 = 0 ∧ 4 ≤ 8 ∧ 5 % 4 ≠ 0 := by decide

/-- A cover of one column and five rows: one block and a partial one. -/
def cover5 : Grid := ⟨1, 5, [⟨0x10, 0, 0⟩, ⟨0x41, 0, 0⟩, ⟨0x74, 0, 0⟩, ⟨0xA7, 0, 0⟩, ⟨1, 2, 3⟩]⟩

/-- A secret of one column and two rows: one pixel with a block, one without. -/
def secret2 : Grid := ⟨1, 2, [⟨0xA5, 0x3C, 0xFF⟩, ⟨0x12, 0x80, 0⟩]⟩

theorem witness_MergeEmbedsEveryBlock :
    cover5.wf = true ∧ secret2.width ≤ cover5.width ∧ secret2.height ≤ cover5.height ∧
    (0 < cover5.width ∧ 0 < blocksPerColumn .inclusive cover5.height) ∧
    4 * blocksPerColumn .inclusive cover5.height ≤ 4 := by decide
theorem witness_MergeUnmergeRoundTrip :
    cover5.wf = true ∧ secret2.width ≤ cover5.width ∧ secret2.height ≤ cover5.height ∧ 0 < secret2.width ∧
    1 < secret2.height ∧ (0 < blocksPerColumn .exclusive cover5.height ∧ 0 < cover5.width) ∧
    ¬ (0 < blocksPerColumn .exclusive cover5.height ∧ 1 < cover5.width) := by decide
theorem witness_UnmergeRecoversEveryBlock :
    0 < cover5.width ∧ 0 < cover5.height ∧ 4 < cover5.height ∧ (0 < blocksPerColumn .inclusive 5 ∧ 0 < 1) := by decide

/-- One pixel of the stego grid of `cover5` and `secret2`, channel R: the block of 95 §3 P4 (column 0, channel R). -/
def stegoRed (y : Nat) : Option Byte :=
  match merge { rowBound := .inclusive } cover5 secret2 State.reset with
  | .ok (.next (T, _)) => some (T.get 0 y).r
  | _ => none

theorem test_merge_P4_column0_red : (List.range 5).map stegoRed = [some 0x10, some 0x41, some 0x7C, some 0xA7, some 1] := by
  decide
theorem test_embedBlockSeq_P2 :
    (match embedBlockSeq 0x12345678 0x30 State.reset with | .next r => some r.1 | _ => none) = some 0x12345778 := by decide
theorem test_extractBlockSeq_P2 :
    (match extractBlockSeq 0x12345778 State.reset with | .next r => some r.1 | _ => none) = some 0x00000030 := by decide
theorem test_merge_dimension_error :
    (match merge {} cover5 ⟨2, 1, []⟩ State.reset with | .error e => some e | .ok _ => none) = some .dimensionError := by
  decide

/-- Two instances, at 0x1000 and 0x1040. -/
def two : Platform := ⟨[⟨0x1000, State.reset⟩, ⟨0x1040, st27⟩]⟩

theorem witness_InstancesShareNoState : two.insts[1]? = some ⟨0x1040, st27⟩ ∧ (0 : Nat) ≠ 1 := by decide
theorem witness_StepsOfInstancesCommute :
    (0 : Nat) ≠ 1 ∧ (two.insts[0]?).isSome = true ∧ (two.insts[1]?).isSome = true := by decide
theorem witness_RequestsReachTheOwningInstance :
    two.wf = true ∧ two.insts[1]? = some ⟨0x1040, st27⟩ ∧
    (0x1040 ≤ (BusRequest.read 32 0x107F).addr ∧ (BusRequest.read 32 0x107F).addr < 0x1040 + 64) ∧
    (0x1040 ≤ (BusRequest.write 32 0x1040 1).addr ∧ (BusRequest.write 32 0x1040 1).addr < 0x1040 + 64) ∧
    (∀ i ∈ two.insts, (BusRequest.read 32 0x1080).addr < i.base ∨ i.base + 64 ≤ (BusRequest.read 32 0x1080).addr) := by
  decide

/-! ### Parallel blocks (95 §3 P4 spread over two instances) -/

/-- The cover, secret and stego grids of P4, row by row. -/
def coverP4 : Grid := ⟨2, 4, [⟨0x10, 0x20, 0x30⟩, ⟨0xFF, 0x00, 0x80⟩, ⟨0x41, 0x52, 0x63⟩, ⟨0x0F, 0xF0, 0x7F⟩,
  ⟨0x74, 0x85, 0x96⟩, ⟨0x33, 0xCC, 0x55⟩, ⟨0xA7, 0xB8, 0xC9⟩, ⟨0xAA, 0x99, 0x66⟩]⟩

def secretP4 : Grid := ⟨1, 2, [⟨0xA5, 0x3C, 0xFF⟩, ⟨0x12, 0x80, 0x00⟩]⟩

def stegoP4 : Grid := ⟨2, 4, [⟨0x10, 0x20, 0x30⟩, ⟨0xFD, 0x00, 0x84⟩, ⟨0x41, 0x52, 0x63⟩, ⟨0x0F, 0xF0, 0x7F⟩,
  ⟨0x7C, 0x84, 0x96⟩, ⟨0x33, 0xCE, 0x55⟩, ⟨0xA7, 0xB8, 0xCB⟩, ⟨0xAA, 0x99, 0x66⟩]⟩

/-- One stream a column, the later column on the first instance. -/
def dealP4 : BlockDeal := [(0, [(1, 0)]), (1, [(0, 0)])]

/-- The two streams taking turns, `n` each. -/
def alternating (n : Nat) : List Nat := (List.range (2 * n)).map (· % 2)

/-- The output grid of a walk, if its streams have finished. -/
def outputOf (o : Host.Outcome ParallelWalk Fault Refusal) : Option Grid :=
  match o with
  | .next w => if w.finished then some w.output else none
  | .fault _ => none
  | .refused _ => none

theorem test_shared_instance_refused :
    dealKeepsDuty .inclusive 2 4 two [(0, [(1, 0)]), (0, [(0, 0)])] = false := by decide
theorem test_absent_instance_refused : dealKeepsDuty .inclusive 2 4 two [(2, [(1, 0), (0, 0)])] = false := by decide
theorem test_busy_instance_refused :
    dealKeepsDuty .inclusive 1 4 ⟨[⟨0, pend .reset State.reset⟩]⟩ [(0, [(0, 0)])] = false := by decide
theorem test_missing_block_refused : dealKeepsDuty .inclusive 2 4 two [(0, [(1, 0)]), (1, [])] = false := by decide
theorem test_mergeParallel_P4 :
    (match mergeParallel coverP4 secretP4 two dealP4 (alternating 13) with
      | .ok o => outputOf o
      | .error _ => none) = some stegoP4 := by decide
theorem test_unmergeParallel_P4 :
    (outputOf (unmergeParallel {} stegoP4 two dealP4 (alternating 10))).map (·.pixels) =
      some (⟨0xA0, 0x30, 0xF0⟩ :: Pixel.black :: ⟨0x10, 0x80, 0x00⟩ :: List.replicate 5 Pixel.black) := by decide
theorem witness_ParallelStreamsAgreeWithSequentialWalk :
    two.wf = true ∧ coverP4.wf = true ∧ secretP4.width ≤ coverP4.width ∧ secretP4.height ≤ coverP4.height ∧
    dealKeepsDuty .inclusive coverP4.width coverP4.height two dealP4 = true ∧
    dealKeepsDuty .inclusive stegoP4.width stegoP4.height two dealP4 = true ∧ 2 ∉ dealP4.map Prod.fst := by decide

end Sys2Proof.Tests
end

/-! ### The `STATUS` word, the error record and the data flags (10_state.md R15, R25 to R29) -/

namespace Sys2Proof.Machine

/-! #### Reading and writing `STATUS` (R15, R29) -/

/-- One bit of the `STATUS` word, by the field it belongs to. -/
theorem getLsbD_statusWord (s : State) (j : Nat) (hj : j < 32) :
    (statusWord s).getLsbD j =
      if j = 0 then s.err else if j = 1 then s.flip else if j = 2 then s.valid else if j = 3 then false
      else if j < 8 then s.errcode.getLsbD (j - 4) else false := by
  simp only [statusWord, BitVec.getLsbD_setWidth, BitVec.getLsbD_append, BitVec.getLsbD_ofBool]
  interval_cases j <;> simp

/-- A write of `STATUS` clears the error record when bit 0 of the written value is 1. -/
theorem writeReg_status (v : Word) (s : State) :
    writeReg .status v s =
      .next { s with err := s.err && !v.getLsbD 0, errcode := if v.getLsbD 0 = true then 0#4 else s.errcode } := by
  unfold writeReg
  cases v.getLsbD 0 <;> simp [clearError]

/-- Settles O13: the read is the `STATUS` word bit by bit, the write depends on bit 0 only. -/
theorem statusFieldsReadAndClear : Obligations.StatusFieldsReadAndClear := by
  unfold Obligations.StatusFieldsReadAndClear
  have hread : ∀ s, busRead 32 0x04 s = (statusWord s, s) := busRead_offset .status
  refine ⟨fun s => ?_, fun v s => ?_, by decide⟩
  · rw [hread]
    exact ⟨rfl, getLsbD_statusWord s⟩
  · exact (busWrite_offset .status v s).trans (writeReg_status v s)

/-! #### The inputs that raise an error (R83, R84) -/

/-- A word is rejected exactly when a reserved bit is set or its opcode is reserved (R51, R52). -/
theorem decode_error_iff (v : Word) :
    (∃ e, decode v = .error e) ↔ 16 ≤ v.toNat ∨ (0x9 ≤ v.toNat % 16 ∧ v.toNat % 16 ≤ 0xE) := by
  have hrsv : v.extractLsb' 4 28 ≠ 0 ↔ 16 ≤ v.toNat := by
    rw [ne_eq, ← BitVec.toNat_inj, BitVec.extractLsb'_toNat]
    simp [Nat.shiftRight_eq_div_pow]
    omega
  have hop : (v.extractLsb' 0 4).toNat = v.toNat % 16 := by simp [BitVec.extractLsb'_toNat]
  unfold decode
  rw [hop]
  split
  · next h => exact ⟨fun _ => .inl (hrsv.mp h), fun _ => ⟨_, rfl⟩⟩
  · next h =>
    have hlow : ¬ 16 ≤ v.toNat := fun hc => h (hrsv.mpr hc)
    have hlt : v.toNat % 16 < 16 := Nat.mod_lt _ (by decide)
    generalize v.toNat % 16 = op at *
    interval_cases op <;> simp [hlow]

/-- An illegal word written to `CMD` only records `ILLEGAL_CMD`. -/
theorem perform_of_isIllegalCmd {x : Input} (s : State) (h : x.isIllegalCmd) :
    perform x s = .next (raiseError .illegalCmd s) := by
  cases x with
  | read width off => exact h.elim
  | reset => exact h.elim
  | write width off v =>
    obtain ⟨rfl, rfl, hv⟩ := h
    obtain ⟨e, he⟩ := (decode_error_iff v).mpr hv
    calc perform (.write 32 0x08 v) s = execute v s := busWrite_offset .cmd v s
      _ = .next (raiseError .illegalCmd s) := by rw [execute, he]

/-- A read that is not performed gives 0 and records `BAD_ACCESS`. -/
theorem busRead_of_refused {width off : Nat} (s : State) (h : accessRefused width off) :
    busRead width off s = (0, raiseError .badAccess s) := by
  rw [busRead, (accessedReg_eq_none _ _).mpr h]

/-- A write that is not performed, or of a read-only register, records `BAD_ACCESS`. -/
theorem busWrite_of_isBadAccess {width off : Nat} {v : Word} (s : State)
    (h : (Input.write width off v).isBadAccess) :
    busWrite width off v s = .next (raiseError .badAccess s) := by
  by_cases hr : accessRefused width off
  · rw [busWrite, (accessedReg_eq_none _ _).mpr hr]
  · have hw : width = 32 := by simp only [accessRefused] at hr; omega
    subst hw
    rcases h with h | rfl | rfl | rfl
    · exact absurd h hr
    · exact busWrite_offset .id v s
    · exact busWrite_offset .out v s
    · exact busWrite_offset .recov v s

/-! #### The error record after one input (R25, R84, R86) -/

/-- An input that clears the error record leaves `ERR` and `ERRCODE` 0. -/
theorem errorRecord_of_clearsErrors {x : Input} {s t : State} (hx : x.clearsErrors) (ht : perform x s = .next t) :
    t.err = false ∧ t.errcode = 0#4 := by
  cases x with
  | read width off => exact hx.elim
  | reset => cases ht; exact ⟨rfl, rfl⟩
  | write width off v =>
    obtain ⟨rfl, rfl, hv⟩ := hx
    have hw : perform (.write 32 0x04 v) s = _ := (busWrite_offset .status v s).trans (writeReg_status v s)
    cases hw.symm.trans ht
    simp only [hv, Bool.not_true, Bool.and_false, if_pos, and_self]

/-- A bad access sets `ERR`, and its code is recorded unless one is. -/
theorem errorRecord_of_isBadAccess {x : Input} {s t : State} (hx : x.isBadAccess) (ht : perform x s = .next t) :
    t.err = true ∧ t.errcode = if s.err = true then s.errcode else 2#4 := by
  cases x with
  | read width off =>
    rw [perform, busRead_of_refused s hx] at ht
    cases ht
    simp [ErrorCode.code]
  | write width off v =>
    rw [perform, busWrite_of_isBadAccess s hx] at ht
    cases ht
    simp [ErrorCode.code]
  | reset => exact hx.elim

/-- An illegal word sets `ERR`, and its code is recorded unless one is. -/
theorem errorRecord_of_isIllegalCmd {x : Input} {s t : State} (hx : x.isIllegalCmd) (ht : perform x s = .next t) :
    t.err = true ∧ t.errcode = if s.err = true then s.errcode else 1#4 := by
  cases (perform_of_isIllegalCmd s hx).symm.trans ht
  simp [ErrorCode.code]

/-- A write of a register keeps the error record unless the rules name it as clearing or raising. -/
theorem errorRecord_writeReg {r : Reg} {v : Word} {s t : State}
    (hc : ¬ (Input.write 32 r.offset v).clearsErrors) (hb : ¬ (Input.write 32 r.offset v).isBadAccess)
    (hi : ¬ (Input.write 32 r.offset v).isIllegalCmd) (ht : writeReg r v s = .next t) :
    t.err = s.err ∧ t.errcode = s.errcode := by
  cases r with
  | id => exact absurd (.inr (.inl rfl)) hb
  | out => exact absurd (.inr (.inr (.inl rfl))) hb
  | recov => exact absurd (.inr (.inr (.inr rfl))) hb
  | status =>
    have hv : v.getLsbD 0 = false := Bool.eq_false_iff.mpr fun hv => hc ⟨rfl, rfl, hv⟩
    cases (writeReg_status v s).symm.trans ht
    simp only [hv, Bool.not_false, Bool.and_true, Bool.false_eq_true, if_false, and_self]
  | cmd =>
    rcases execute_cases v s with ⟨i, -, he⟩ | ⟨hd, -⟩
    · obtain ⟨u, hu, herr, hcode, -, -⟩ := exec_next i s
      cases (he.trans hu).symm.trans ht
      exact ⟨herr, hcode⟩
    · exact absurd ⟨rfl, rfl, (decode_error_iff v).mp hd⟩ hi
  | cover | secret | win | syn | idx => cases ht; exact ⟨rfl, rfl⟩

/-- An input that neither clears the error record nor raises an error keeps it. -/
theorem errorRecord_kept {x : Input} {s t : State} (hc : ¬ x.clearsErrors) (hb : ¬ x.isBadAccess)
    (hi : ¬ x.isIllegalCmd) (ht : perform x s = .next t) : t.err = s.err ∧ t.errcode = s.errcode := by
  cases x with
  | reset => exact absurd trivial hc
  | read width off =>
    cases ha : accessedReg width off with
    | none => exact absurd ((accessedReg_eq_none _ _).mp ha) hb
    | some r =>
      simp only [perform, busRead, ha] at ht
      cases ht
      exact ⟨rfl, rfl⟩
  | write width off v =>
    cases ha : accessedReg width off with
    | none => exact absurd (.inl ((accessedReg_eq_none _ _).mp ha)) hb
    | some r =>
      obtain ⟨rfl, rfl⟩ := (accessedReg_eq_some _ _ _).mp ha
      exact errorRecord_writeReg hc hb hi ((busWrite_offset r v s).symm.trans ht)

/-- Settles O18: each class of inputs of R83, R84 and R86 by its own lemma. -/
theorem errorRecordAfterAnyInput : Obligations.ErrorRecordAfterAnyInput := by
  unfold Obligations.ErrorRecordAfterAnyInput
  refine ⟨rfl, fun x s => ?_⟩
  obtain ⟨t, ht, -⟩ := perform_next x s
  exact ⟨t, ht, (errorRecord_of_clearsErrors · ht), (errorRecord_of_isBadAccess · ht),
    (errorRecord_of_isIllegalCmd · ht), (errorRecord_kept · · · ht)⟩

/-! #### `FLIP` and `VALID` (R26, R27) -/

/-- The flag of an index says whether it is in [1, 15]. -/
theorem indexFlag_eq_inRange (i : Nibble) : indexFlag i = decide (1 ≤ i.toNat ∧ i.toNat ≤ 15) := by
  rw [Bool.decide_and]
  rfl

/-- A write of a register other than `CMD` keeps `FLIP` and `VALID`. -/
theorem writeReg_keepsFlags {r : Reg} (hr : r ≠ .cmd) (v : Word) (s : State) :
    ∃ t, writeReg r v s = .next t ∧ t.flip = s.flip ∧ t.valid = s.valid := by
  cases r with
  | cmd => exact absurd rfl hr
  | status => exact ⟨_, writeReg_status v s, rfl, rfl⟩
  | id | out | recov => exact ⟨_, rfl, raiseError_flip _ _, raiseError_valid _ _⟩
  | cover | secret | win | syn | idx => exact ⟨_, rfl, rfl, rfl⟩

/-- A bus write at an offset other than that of `CMD`, performed or not, keeps `FLIP` and `VALID`. -/
theorem busWrite_keepsFlags {off : Nat} (hoff : off ≠ 0x08) (width : Nat) (v : Word) (s : State) :
    ∃ t, busWrite width off v s = .next t ∧ t.flip = s.flip ∧ t.valid = s.valid := by
  unfold busWrite
  split
  · next r ha =>
    have hr : r ≠ .cmd := by
      rintro rfl
      exact hoff ((accessedReg_eq_some _ _ _).mp ha).2
    exact writeReg_keepsFlags hr v s
  · exact ⟨_, rfl, raiseError_flip _ _, raiseError_valid _ _⟩

/-- Settles O36, the commands one by one: each flag written is the flag of the index the command used. -/
theorem flipAndValidAfterEveryCommand : Obligations.FlipAndValidAfterEveryCommand := by
  unfold Obligations.FlipAndValidAfterEveryCommand
  refine ⟨fun i s => ?_, fun off v s hoff => busWrite_keepsFlags hoff 32 v s, rfl, rfl⟩
  cases i with
  | correct => exact ⟨_, rfl, indexFlag_eq_inRange _, rfl⟩
  | decode => exact ⟨_, rfl, rfl, indexFlag_eq_inRange _⟩
  | embed => exact ⟨_, rfl, indexFlag_eq_inRange _, indexFlag_eq_inRange _⟩
  | nop | gather | synd | scatter | recover | extract | clear => exact ⟨_, rfl, rfl, rfl⟩

end Sys2Proof.Machine

/-! ### Bus accesses by width and offset (20_memory.md R38, R39) -/

namespace Sys2Proof.Machine

/-- An access that the access check lets through is a 32-bit access at the offset of a register. -/
theorem exists_offset_of_not_accessRefused {width off : Nat} (h : ¬ accessRefused width off) :
    ∃ r : Reg, width = 32 ∧ off = r.offset := by
  have hsome : accessedReg width off ≠ none := mt (accessedReg_eq_none _ _).mp h
  obtain ⟨r, hr⟩ := Option.ne_none_iff_exists'.mp hsome
  exact ⟨r, (accessedReg_eq_some _ _ _).mp hr⟩

/-- Settles O11: a refused read by the access check, any other by the register its offset names. -/
theorem busReadByOffset : Obligations.BusReadByOffset := by
  unfold Obligations.BusReadByOffset
  intro width off s
  by_cases h : accessRefused width off
  · exact (busRead_of_refused s h).trans (if_pos h).symm
  · obtain ⟨r, rfl, rfl⟩ := exists_offset_of_not_accessRefused h
    refine (busRead_offset r s).trans (Eq.trans ?_ (if_neg h).symm)
    cases r <;> rfl

/-- Settles O12: a refused write by the access check, any other by the register its offset names. -/
theorem busWriteByOffset : Obligations.BusWriteByOffset := by
  unfold Obligations.BusWriteByOffset
  intro width off v s
  by_cases h : accessRefused width off
  · exact (busWrite_of_isBadAccess s (.inl h)).trans (if_pos h).symm
  · obtain ⟨r, rfl, rfl⟩ := exists_offset_of_not_accessRefused h
    refine (busWrite_offset r v s).trans (Eq.trans ?_ (if_neg h).symm)
    cases r <;> rfl

end Sys2Proof.Machine

/-! ### Command words (30_encoding.md R49 to R52) -/

namespace Sys2Proof.Machine

/-! #### The words the decoder accepts (R50) -/

/-- The opcode field is the word modulo 16. -/
theorem toNat_opcode (v : Word) : (v.extractLsb' 0 4).toNat = v.toNat % 16 := by
  simp [BitVec.extractLsb'_toNat]

/-- A word whose reserved bits are 0 is below 16. -/
theorem toNat_lt_of_reservedBits_eq_zero {v : Word} (h : v.extractLsb' 4 28 = 0#28) : v.toNat < 16 := by
  have hdiv : v.toNat / 2 ^ 4 % 2 ^ 28 = 0 := by
    simpa [Nat.shiftRight_eq_div_pow] using congrArg BitVec.toNat h
  omega

/-- A word whose reserved bits are 0 is its opcode, zero-extended. -/
theorem eq_setWidth_opcode {v : Word} (h : v.extractLsb' 4 28 = 0#28) :
    v = (v.extractLsb' 0 4).setWidth 32 := by
  have hlt := toNat_lt_of_reservedBits_eq_zero h
  apply BitVec.eq_of_toNat_eq
  rw [BitVec.toNat_setWidth, toNat_opcode]
  omega

/-- A word with a reserved bit set is no command, whatever its opcode (R51). -/
theorem decode_of_reservedBits_ne_zero {v : Word} (h : v.extractLsb' 4 28 ≠ 0#28) :
    decode v = .error .reservedBits :=
  if_pos h

/-- The word of a command decodes to it. -/
theorem decode_encode (i : Instr) : decode (encode i) = .ok i := by
  cases i <;> rfl

/-- The 16 words without reserved bits: one that decodes to a command is that command's word. -/
theorem setWidth_eq_encode_of_decode (op : Nibble) (i : Instr) (h : decode (op.setWidth 32) = .ok i) :
    op.setWidth 32 = encode i := by
  revert op
  cases i <;> decide

/-- A word decodes to a command exactly when the whole word is the command's. -/
theorem decode_eq_ok_iff (v : Word) (i : Instr) : decode v = .ok i ↔ v = encode i := by
  constructor
  · intro h
    by_cases hrsv : v.extractLsb' 4 28 = 0#28
    · rw [eq_setWidth_opcode hrsv] at h ⊢
      exact setWidth_eq_encode_of_decode _ i h
    · rw [decode_of_reservedBits_ne_zero hrsv] at h
      cases h
  · rintro rfl
    exact decode_encode i

/-- Settles O2: the whole-word match of each command. -/
theorem eachCommandIsOneWord : Obligations.EachCommandIsOneWord := by
  unfold Obligations.EachCommandIsOneWord
  intro v
  exact ⟨decode_eq_ok_iff v .nop, decode_eq_ok_iff v .gather, decode_eq_ok_iff v .synd, decode_eq_ok_iff v .decode,
    decode_eq_ok_iff v .correct, decode_eq_ok_iff v .scatter, decode_eq_ok_iff v .recover, decode_eq_ok_iff v .embed,
    decode_eq_ok_iff v .extract, decode_eq_ok_iff v .clear⟩

/-! #### What a write of `CMD` does (R49, R51, R52, R83) -/

/-- Recording `ILLEGAL_CMD` writes code 1 unless an error is recorded already (R82). -/
theorem raiseError_illegalCmd (s : State) :
    raiseError .illegalCmd s = if s.err = true then s else { s with err := true, errcode := 1#4 } :=
  rfl

/-- Settles O4: an accepted word is one of the ten command words; a rejected one has a reserved bit set, or an opcode
that is the opcode of no command. -/
theorem cmdWriteExecutesByFields : Obligations.CmdWriteExecutesByFields := by
  unfold Obligations.CmdWriteExecutesByFields
  intro v s
  rw [← raiseError_illegalCmd]
  refine (busWrite_offset .cmd v s).trans ?_
  rcases execute_cases v s with ⟨i, hdec, hexec⟩ | ⟨hdec, hexec⟩
  · obtain rfl := (decode_eq_ok_iff v i).mp hdec
    refine hexec.trans ?_
    cases i <;> rfl
  · refine hexec.trans ?_
    by_cases hrsv : v.extractLsb' 4 28 = 0#28
    · have hop : 0x9 ≤ v.toNat % 16 ∧ v.toNat % 16 ≤ 0xE :=
        ((decode_error_iff v).mp hdec).resolve_left (toNat_lt_of_reservedBits_eq_zero hrsv).not_ge
      rw [if_neg (not_not.mpr hrsv)]
      simp (disch := omega) only [← BitVec.toNat_inj, toNat_opcode, BitVec.toNat_ofNat, if_neg]
    · exact (if_pos hrsv).symm

/-- Settles O5: these are the words whose write of `CMD` is an illegal command. -/
theorem illegalWordOnlyRecordsError : Obligations.IllegalWordOnlyRecordsError := by
  unfold Obligations.IllegalWordOnlyRecordsError
  intro v s hv
  have hillegal : (Input.write 32 0x08 v).isIllegalCmd := ⟨rfl, rfl, hv⟩
  rw [← raiseError_illegalCmd]
  exact perform_of_isIllegalCmd s hillegal

end Sys2Proof.Machine

/-! ### The GF(2) matrix engine (41_gf2_engine.md R57 to R63) -/

namespace Sys2Proof.Machine

/-! #### The product (R57, R58, R62) -/

/-- R9's sum over GF(2) is the left fold of exclusive OR over the terms. -/
theorem xorOver_eq_foldl (n : Nat) (f : Nat → Bool) :
    xorOver n f = ((List.range n).map (fun q => f (q + 1))).foldl xor false := by
  induction n with
  | zero => rfl
  | succ n ih => simp [xorOver, ih, List.range_succ]

/-- A sum over GF(2) whose terms vanish off `p` is the term at `p`, if `p` is in range. -/
theorem xorOver_eq_single {n p : Nat} {f g : Nat → Bool}
    (h : ∀ q, 1 ≤ q → q ≤ n → f q = (g q && decide (q = p))) :
    xorOver n f = (g p && decide (1 ≤ p ∧ p ≤ n)) := by
  induction n with
  | zero =>
    have hp : ¬ (1 ≤ p ∧ p ≤ 0) := by omega
    rw [xorOver, decide_eq_false hp, Bool.and_false]
  | succ n ih =>
    rw [xorOver, ih fun q h1 hn => h q h1 (Nat.le_succ_of_le hn), h (n + 1) (Nat.le_add_left 1 n) le_rfl]
    by_cases hp : n + 1 = p
    · subst hp
      simp
    · have hrange : (1 ≤ p ∧ p ≤ n + 1) ↔ (1 ≤ p ∧ p ≤ n) := by omega
      simp [hp, hrange]

/-- Position `q + 1` of a window is bit `14 - q` (R18). -/
theorem pos_succ (w : Window) (q : Nat) : pos w (q + 1) = w.getLsbD (14 - q) :=
  congrArg w.getLsbD (Nat.add_sub_add_right 14 1 q)

/-- The window with a single 1 at position `p`, position by position. -/
theorem pos_single {p q : Nat} (hp : p ≤ 15) (h1 : 1 ≤ q) (hq : q ≤ 15) :
    pos (1#15 <<< (15 - p)) q = decide (q = p) := by
  rw [pos, Config.windowLength, BitVec.getLsbD_shiftLeft, BitVec.getLsbD_one, Bool.eq_iff_iff]
  simp only [Bool.and_eq_true, Bool.not_eq_true', decide_eq_true_eq, decide_eq_false_iff_not]
  omega

/-- The product of any matrix with a single 1 at position `p` is column `p`. -/
theorem getLsbD_multiplyWith_single (H : Nat → Nat → Bool) {r p : Nat} (hr : 1 ≤ r) (hr4 : r ≤ 4)
    (hp : 1 ≤ p) (hp15 : p ≤ 15) : (multiplyWith H (1#15 <<< (15 - p))).getLsbD (4 - r) = H r p := by
  have hterm : ∀ q, 1 ≤ q → q ≤ 15 → (H r q && pos (1#15 <<< (15 - p)) q) = (H r q && decide (q = p)) :=
    fun q h1 hq => by rw [pos_single hp15 h1 hq]
  rw [getLsbD_multiplyWith H _ r hr hr4, dotRow, xorOver_eq_single hterm]
  simp [hp, hp15]

/-- Column `p` of the engine's matrix is the binary form of `p`, so a single 1 at position `p` has product `p`. -/
theorem multiply_single {p : Nat} (hp : 1 ≤ p) (hp15 : p ≤ 15) :
    multiply (1#15 <<< (15 - p)) = BitVec.ofNat 4 p := by
  refine BitVec.eq_of_getLsbD_eq fun i hi => ?_
  have hrow : 4 - (4 - i) = i := by omega
  have hcol := getLsbD_multiplyWith_single parityMatrix (r := 4 - i) (by omega) (by omega) hp hp15
  rw [hrow] at hcol
  rw [multiply, hcol, parityMatrix, Config.syndromeLength, hrow, Nat.testBit_shiftRight, Nat.add_zero,
    BitVec.getLsbD_ofNat, decide_eq_true hi, Bool.true_and]

/-- Settles O26: the rows by R58, a single 1 by its column, the zero and the all-one window by evaluation. -/
theorem syndMultipliesTheWindow : Obligations.SyndMultipliesTheWindow := by
  unfold Obligations.SyndMultipliesTheWindow
  refine ⟨decode_encode .synd, fun s =>
    ⟨_, rfl, rfl, fun r h1 h4 => ?_, fun hw => ?_, fun hw => ?_, fun p h1 h15 hw => ?_⟩⟩
  · rw [setSyn_syn, multiply, getLsbD_multiplyWith _ _ r h1 h4, dotRow, xorOver_eq_foldl]
    simp only [pos_succ]
  · exact (congrArg multiply hw).trans (by decide)
  · exact (congrArg multiply hw).trans (by decide)
  · exact (congrArg multiply hw).trans (multiply_single h1 h15)

/-! #### `bitsToIndex` (R60) -/

/-- A further bit at the end doubles the value and is added to it. -/
theorem bitsToIndex_append_singleton (bs : List Bool) (b : Bool) :
    bitsToIndex (bs ++ [b]) = 2 * bitsToIndex bs + b.toNat := by
  simp [bitsToIndex]

/-- R60's weighted sum, by induction on the list from its end. -/
theorem bitsToIndex_eq_sum (bs : List Bool) :
    bitsToIndex bs =
      ((List.range bs.length).map (fun j => (bs.getD j false).toNat * 2 ^ (bs.length - 1 - j))).sum := by
  induction bs using List.reverseRecOn with
  | nil => rfl
  | append_singleton bs b ih =>
    have hterm : ∀ j ∈ List.range bs.length,
        ((bs ++ [b]).getD j false).toNat * 2 ^ (bs.length - j) =
          2 * ((bs.getD j false).toNat * 2 ^ (bs.length - 1 - j)) := by
      intro j hj
      have hlt : j < bs.length := List.mem_range.mp hj
      have hexp : bs.length - j = bs.length - 1 - j + 1 := by omega
      rw [List.getD_append _ _ _ _ hlt, hexp, Nat.pow_succ]
      ring
    rw [bitsToIndex_append_singleton, ih, List.length_append, List.length_singleton, List.range_succ, List.map_append,
      List.sum_append, Nat.add_sub_cancel, List.map_congr_left hterm, List.sum_map_mul_left]
    simp

/-- The bits of a value are those of its upper part, then bit 0. -/
theorem msbFirst_succ {n : Nat} (v : BitVec (n + 1)) :
    msbFirst v = msbFirst (v.extractLsb' 1 n) ++ [v.getLsbD 0] := by
  have hbit : ∀ i ∈ List.range n, v.getLsbD (n - i) = (v.extractLsb' 1 n).getLsbD (n - 1 - i) := by
    intro i hi
    have hlt : i < n := List.mem_range.mp hi
    have hidx : 1 + (n - 1 - i) = n - i := by omega
    have hin : n - 1 - i < n := by omega
    rw [BitVec.getLsbD_extractLsb', decide_eq_true hin, Bool.true_and, hidx]
  rw [msbFirst, List.range_succ, List.map_append, Nat.add_sub_cancel, List.map_congr_left hbit, List.map_singleton,
    Nat.sub_self, msbFirst]

/-- The index of the bits of a register value is the value, at every width. -/
theorem bitsToIndex_msbFirst {n : Nat} (v : BitVec n) : bitsToIndex (msbFirst v) = v.toNat := by
  induction n with
  | zero => simp [msbFirst, bitsToIndex, BitVec.eq_nil v]
  | succ n ih =>
    have hlt : v.toNat < 2 ^ (n + 1) := v.isLt
    have hupper : v.toNat / 2 % 2 ^ n = v.toNat / 2 := Nat.mod_eq_of_lt (by omega)
    have hlow : (v.getLsbD 0).toNat = v.toNat % 2 := by
      rw [BitVec.getLsbD, Nat.toNat_testBit, Nat.pow_zero, Nat.div_one]
    rw [msbFirst_succ, bitsToIndex_append_singleton, ih, BitVec.extractLsb'_toNat, Nat.shiftRight_one, hupper, hlow]
    exact Nat.div_add_mod _ 2

/-- On a 4-bit register value `bitsToIndex` is the identity. -/
theorem syndromeIndex_eq (d : Nibble) : syndromeIndex d = d := by
  rw [syndromeIndex, bitsToIndex_msbFirst, BitVec.ofNat_toNat, BitVec.setWidth_eq]

/-- Settles O43: the sum for every list, its four-bit case, and the identity on register values. -/
theorem bitsToIndexIsMsbFirstSum : Obligations.BitsToIndexIsMsbFirstSum := by
  unfold Obligations.BitsToIndexIsMsbFirstSum
  refine ⟨bitsToIndex_eq_sum, fun s1 s2 s3 s4 => ?_, syndromeIndex_eq, bitsToIndex_msbFirst⟩
  simp only [bitsToIndex, List.foldl]
  omega

/-! #### `indexIsValid` and `DECODE` (R61, R63) -/

/-- Settles O44: the range by definition, the 4-bit case by the flag of an index. -/
theorem indexValidInOneBasedRange : Obligations.IndexValidInOneBasedRange := by
  unfold Obligations.IndexValidInOneBasedRange
  refine ⟨fun i length => ?_, indexFlag_eq⟩
  rw [indexIsValid, Bool.and_eq_true, decide_eq_true_iff, decide_eq_true_iff]

/-- Settles O27: the index written is the difference itself, and its flag says whether it is not 0. -/
theorem decodeWritesIndexAndValid : Obligations.DecodeWritesIndexAndValid := by
  unfold Obligations.DecodeWritesIndexAndValid
  refine ⟨decode_encode .decode, fun s => ?_⟩
  have hexec : exec .decode s = execDecode s := rfl
  rw [hexec, execDecode, syndromeIndex_eq, indexFlag_eq]
  rfl

end Sys2Proof.Machine

/-! ### The window codec (42_window_codec.md R64 to R69) -/

namespace Sys2Proof.Machine

/-! #### The corrector (R64) -/

/-- The one-hot word of an index; index 0 shifts the bit out of the window. -/
theorem oneHot_eq_shiftLeft (i : Nibble) : oneHot i = 1#15 <<< (15 - i.toNat) :=
  congrArg (BitVec.ofNat 15) (Nat.one_shiftLeft (15 - i.toNat)).symm

/-- The corrector adds the one-hot word of the index over GF(2), whatever the index. -/
theorem flipAt_eq_xor_oneHot (w : Window) (i : Nibble) : flipAt w i = w ^^^ oneHot i := by
  rw [flipAt_eq, oneHot_eq_shiftLeft]
  split
  · next hi =>
    subst hi
    exact (BitVec.xor_zero (x := w)).symm
  · rfl

/-- Positions of an exclusive OR of windows. -/
theorem pos_xor (a b : Window) (p : Nat) : pos (a ^^^ b) p = xor (pos a p) (pos b p) :=
  BitVec.getLsbD_xor

/-- The one-hot word of an index has a 1 at the indexed position only. -/
theorem pos_oneHot (i : Nibble) {p : Nat} (h1 : 1 ≤ p) (h15 : p ≤ 15) :
    pos (oneHot i) p = decide (p = i.toNat) := by
  rw [oneHot_eq_shiftLeft, pos_single (Nat.le_of_lt_succ i.isLt) h1 h15]

/-- Index 0 leaves the window. -/
theorem flipAt_zero (w : Window) : flipAt w 0#4 = w := rfl

/-- Flipping the same position twice restores the window. -/
theorem flipAt_flipAt (w : Window) (i : Nibble) : flipAt (flipAt w i) i = w := by
  rw [flipAt_eq_xor_oneHot, flipAt_eq_xor_oneHot, BitVec.xor_assoc, BitVec.xor_self, BitVec.xor_zero]

/-- Settles O45: the corrector adds a word that is 1 at the indexed position only. -/
theorem flipChangesOnlyTheIndexedPosition : Obligations.FlipChangesOnlyTheIndexedPosition := by
  unfold Obligations.FlipChangesOnlyTheIndexedPosition
  refine fun w i => ⟨fun p h1 h15 => ?_, ?_, flipAt_eq_xor_oneHot w i⟩
  · rw [flipAt_eq_xor_oneHot, pos_xor, pos_oneHot i h1 h15]
  · rintro rfl
    exact flipAt_zero w

/-! #### `CORRECT` (R65) -/

/-- Settles O29: the flag of an index says whether it is not 0, and a flip undoes itself. -/
theorem correctFlipsTheIndexedBit : Obligations.CorrectFlipsTheIndexedBit := by
  unfold Obligations.CorrectFlipsTheIndexedBit
  refine ⟨decode_encode .correct, fun s => ?_, fun s => ?_⟩
  · rw [← flipAt_eq, ← indexFlag_eq]
    rfl
  · calc andThen (exec .correct s) (exec .correct)
      _ = .next { s with win := flipAt (flipAt s.win s.idx) s.idx, flip := indexFlag s.idx } := rfl
      _ = .next { s with flip := decide (s.idx ≠ 0#4) } := by rw [flipAt_flipAt, indexFlag_eq]

/-! #### What a flipped window does to the cover word (R67, R71, R73) -/

/-- `scatter` is linear over GF(2) in the cover and the window together. -/
theorem scatter_xor (c d : Word) (w x : Window) : scatter (c ^^^ d) (w ^^^ x) = scatter c w ^^^ scatter d x := by
  refine BitVec.eq_of_getLsbD_eq fun j hj => ?_
  simp only [BitVec.getLsbD_xor, getLsbD_scatter _ _ j hj]
  split_ifs <;> rfl

/-- Putting back the window a cover word was read for gives the cover word. -/
theorem scatter_gather (c : Word) : scatter c (gather c) = c := by
  refine BitVec.eq_of_getLsbD_eq fun j hj => ?_
  rw [getLsbD_scatter c _ j hj]
  split_ifs <;>
    simp (disch := omega) only [getLsbD_gather, if_pos, if_neg, Nat.add_sub_cancel_left, Nat.add_sub_of_le]

/-- The bits of a word that carry window positions, the four low fields of R71. -/
def carrierBits : List Nat := [0, 1, 2, 8, 9, 10, 11, 16, 17, 18, 19, 24, 25, 26, 27]

/-- In an all-zero cover the one-hot window of a valid index is a single 1, in one of the four low fields. -/
theorem scatter_zero_oneHot (i : Nibble) (hi : i ≠ 0#4) :
    ∃ b ∈ carrierBits, scatter 0#32 (oneHot i) = 1#32 <<< b := by
  revert i
  decide

/-- Correcting the window of a cover word at a valid index changes one bit of the word, in the four low fields. -/
theorem scatter_flipAt_gather (c : Word) {i : Nibble} (hi : i ≠ 0#4) :
    ∃ b ∈ carrierBits, scatter c (flipAt (gather c) i) = c ^^^ (1#32 <<< b) := by
  obtain ⟨b, hb, hbit⟩ := scatter_zero_oneHot i hi
  refine ⟨b, hb, ?_⟩
  calc scatter c (flipAt (gather c) i)
    _ = scatter (c ^^^ 0#32) (gather c ^^^ oneHot i) := by rw [flipAt_eq_xor_oneHot, BitVec.xor_zero]
    _ = c ^^^ (1#32 <<< b) := by rw [scatter_xor, scatter_gather, hbit]

/-! #### `EMBED` and `EXTRACT` (R67, R69) -/

/-- The flip index of a window and a nibble is the nibble's difference from the syndrome. -/
theorem embedIndex_eq (w : Window) (n : Nibble) : embedIndex w n = n ^^^ multiply w :=
  syndromeIndex_eq _

/-- What `EMBED` writes, by the window, the index and the corrected window it computes. -/
theorem exec_embed (s : State) {w w2 : Window} {i : Nibble} (hw : gather s.cover = w)
    (hi : nibble s.secret ^^^ multiply w = i) (hw2 : flipAt w i = w2) :
    exec .embed s = .next { s with win := w2, syn := multiply w, idx := i, valid := decide (i ≠ 0#4),
                                   flip := decide (i ≠ 0#4), out := scatter s.cover w2 } := by
  have hexec : exec .embed s = execEmbed s := rfl
  subst hw hi hw2
  rw [hexec, execEmbed, embedIndex_eq, indexFlag_eq]
  rfl

/-- `EMBED` is its five primitives in order. -/
theorem exec_embedSeq (s : State) :
    (andThen (exec .gather s) fun s1 => andThen (exec .synd s1) fun s2 => andThen (exec .decode s2) fun s3 =>
      andThen (exec .correct s3) fun s4 => exec .scatter s4) = exec .embed s :=
  rfl

/-- Settles O32: the corrected window is the gathered one, flipped at the index; put back into `COVER` it gives
`COVER`, but for one bit when the index is not 0. -/
theorem embedWritesAllStages : Obligations.EmbedWritesAllStages := by
  unfold Obligations.EmbedWritesAllStages
  refine ⟨decode_encode .embed, fun s => ?_⟩
  intro w i w2
  have hw2 : flipAt w i = w2 := flipAt_eq w i
  refine ⟨exec_embed s rfl rfl hw2, exec_embedSeq s, fun hi => ?_, fun hi => ?_⟩
  · rw [← hw2, hi, flipAt_zero, scatter_gather]
  · rw [← hw2]
    exact scatter_flipAt_gather s.cover hi

/-- What `EXTRACT` writes: the gathered window, its product, and the byte reconstructed from it. -/
theorem exec_extract (s : State) :
    exec .extract s = .next { s with win := gather s.cover, syn := multiply (gather s.cover),
                                     recov := multiply (gather s.cover) ++ 0#4 } :=
  rfl

/-- `EXTRACT` is its three primitives in order. -/
theorem exec_extractSeq (s : State) :
    (andThen (exec .gather s) fun s1 => andThen (exec .synd s1) fun s2 => exec .recover s2) = exec .extract s :=
  rfl

/-- Settles O33: the primitives write the registers `EXTRACT` writes, with the same values. -/
theorem extractReadsTheNibble : Obligations.ExtractReadsTheNibble := by
  unfold Obligations.ExtractReadsTheNibble
  exact ⟨decode_encode .extract, fun s => ⟨exec_extract s, exec_extractSeq s⟩⟩

end Sys2Proof.Machine

/-! ### The bit-field extractor and assembler (43_bitfield.md R71 to R76) -/

namespace Sys2Proof.Machine

/-! #### `GATHER` (R71, R72) -/

/-- R71's table: the cover bit at each position of a gathered window, pixel by pixel. -/
theorem pos_gather (c : Word) {p : Nat} (h1 : 1 ≤ p) (h15 : p ≤ 15) :
    pos (gather c) p = c.getLsbD
      (if p ≤ 3 then 3 - p else if p ≤ 7 then 15 - p else if p ≤ 11 then 27 - p else 39 - p) := by
  have hj : 15 - p < 15 := by omega
  rw [pos, Config.windowLength, getLsbD_gather c _ hj]
  simp only [← apply_ite c.getLsbD]
  congr 1
  split_ifs <;> omega

/-- Settles O25: the window is R71's concatenation, and R71's table says which cover bit each position holds. -/
theorem gatherBuildsTheWindow : Obligations.GatherBuildsTheWindow := by
  unfold Obligations.GatherBuildsTheWindow
  refine ⟨decode_encode .gather, fun s => ⟨setWin (gather s.cover) s, rfl, rfl, ?_⟩⟩
  rw [setWin_win]
  refine ⟨fun p hlo hhi => ?pixel1, fun p hlo hhi => ?pixel2, fun p hlo hhi => ?pixel3, fun p hlo hhi => ?pixel4⟩
  all_goals
    rw [pos_gather s.cover (by omega) (by omega)]
    simp (disch := omega) only [if_pos, if_neg]

/-! #### `SCATTER` and `RECOVER` (R74, R76) -/

/-- Settles O30: `OUT` receives R73's assembled lanes, and no other register is written. -/
theorem scatterAssemblesTheLanes : Obligations.ScatterAssemblesTheLanes := by
  unfold Obligations.ScatterAssemblesTheLanes
  exact ⟨decode_encode .scatter, fun s => rfl⟩

/-- R75's two forms of a reconstructed byte agree: the nibble followed by four zeros, and the nibble shifted left. -/
theorem reconstruct_eq_shiftLeft (n : Nibble) : reconstruct n = BitVec.setWidth 8 n <<< 4 :=
  calc reconstruct n
    _ = n.shiftLeftZeroExtend 4 ||| 0#8 := rfl
    _ = n.shiftLeftZeroExtend 4 := BitVec.or_zero
    _ = BitVec.setWidth 8 n <<< 4 := BitVec.shiftLeftZeroExtend_eq

/-- The high nibble of a reconstructed byte is the nibble it was reconstructed from. -/
theorem nibble_reconstruct (n : Nibble) : nibble (reconstruct n) = n :=
  BitVec.extractLsb'_append_eq_left

/-- The low nibble of a reconstructed byte is 0. -/
theorem extractLsb'_low_reconstruct (n : Nibble) : (reconstruct n).extractLsb' 0 4 = 0#4 :=
  BitVec.extractLsb'_append_eq_right

/-- Settles O31: `SYN` shifted left by four is the byte reconstructed from it. -/
theorem recoverAssemblesTheByte : Obligations.RecoverAssemblesTheByte := by
  unfold Obligations.RecoverAssemblesTheByte
  refine ⟨decode_encode .recover, fun s => ?_⟩
  rw [← reconstruct_eq_shiftLeft]
  exact ⟨rfl, nibble_reconstruct s.syn, extractLsb'_low_reconstruct s.syn⟩

end Sys2Proof.Machine

/-! ### The control commands (44_control.md R77, R78) -/

namespace Sys2Proof.Machine

/-- R77: `NOP` answers the state it is given. -/
theorem exec_nop (s : State) : exec .nop s = .next s :=
  rfl

/-- Settles O24: the word of `NOP` is 0, and `NOP` has no effect on any state. -/
theorem nopChangesNothing : Obligations.NopChangesNothing := by
  unfold Obligations.NopChangesNothing
  exact ⟨decode_encode .nop, exec_nop⟩

/-- R78: the registers `CLEAR` writes are every one but `ERR` and `ERRCODE`, which it keeps. -/
theorem exec_clear (s : State) :
    exec .clear s = .next { s with cover := 0#32, secret := 0#8, win := 0#15, syn := 0#4, idx := 0#4, out := 0#32,
                                   recov := 0#8, flip := false, valid := false } :=
  rfl

/-- Reset with the error record put back is 0 in every register `CLEAR` writes, and keeps the host's side. -/
theorem resetEngine_with_errorRecord (s : State) :
    { resetEngine s with err := s.err, errcode := s.errcode } =
      { s with cover := 0#32, secret := 0#8, win := 0#15, syn := 0#4, idx := 0#4, out := 0#32, recov := 0#8,
               flip := false, valid := false } :=
  rfl

/-- Settles O34: `CLEAR` writes the reset value to every register outside the error record, so it differs from reset
only in keeping that record. -/
theorem clearKeepsOnlyTheErrorRecord : Obligations.ClearKeepsOnlyTheErrorRecord := by
  unfold Obligations.ClearKeepsOnlyTheErrorRecord
  refine ⟨decode_encode .clear, fun s => ⟨exec_clear s, ?_⟩⟩
  rw [resetEngine_with_errorRecord]
  exact exec_clear s

end Sys2Proof.Machine

/-! ### Erroneous inputs, and inputs after an error (60_exceptions.md R80, R82, R87) -/

namespace Sys2Proof.Machine

/-! #### What an error changes (R80, R82) -/

/-- R82: recording an error sets `ERR` and writes `ERRCODE` only if no error is recorded, and changes nothing else. -/
theorem raiseError_eq (k : ErrorCode) (s : State) :
    raiseError k s = { s with err := true, errcode := if s.err = true then s.errcode else k.code } := by
  cases h : s.err with
  | true => rw [raiseError, if_pos h, if_pos rfl, ← h]
  | false => simp [raiseError, h]

/-- Settles O17: a refused read gives 0 to the host and records its error; every other erroneous input only records. -/
theorem erroneousInputHasNoOtherEffect : Obligations.ErroneousInputHasNoOtherEffect := by
  unfold Obligations.ErroneousInputHasNoOtherEffect
  rintro x s code (⟨hbad, rfl⟩ | ⟨hill, rfl⟩)
  · cases x with
    | read width off =>
      rw [perform, busRead_of_refused s hbad, raiseError_eq]
      rfl
    | write width off v =>
      rw [perform, busWrite_of_isBadAccess s hbad, raiseError_eq]
      rfl
    | reset => exact hbad.elim
  · rw [perform_of_isIllegalCmd s hill, raiseError_eq]
    cases x with
    | write width off v => rfl
    | read | reset => exact hill.elim

/-! #### What the error record can influence (R87) -/

/-- From two states that differ at most in the error record, `f` answers two states that differ at most in the error
record: R87's "performed as if `ERR` were 0", for a part of the engine. -/
def IgnoresRecord (f : State → Host.Outcome State Fault Refusal) : Prop :=
  ∀ (s : State) (e : Bool) (c : Nibble), ∃ (t : State) (e' : Bool) (c' : Nibble),
    f s = .next t ∧ f { s with err := e, errcode := c } = .next { t with err := e', errcode := c' }

/-- Whether an error is recorded already decides only what the record holds afterwards. -/
theorem ignoresRecord_raiseError (k : ErrorCode) : IgnoresRecord fun s => .next (raiseError k s) := by
  intro s e c
  simp only [raiseError_eq]
  exact ⟨_, _, _, rfl, rfl⟩

/-- No command reads the error record. -/
theorem ignoresRecord_exec (i : Instr) : IgnoresRecord (exec i) := by
  intro s e c
  cases i <;> exact ⟨_, e, c, rfl, rfl⟩

/-- A `CMD` write runs the command of its word, or records an error, whatever the record holds. -/
theorem ignoresRecord_execute (v : Word) : IgnoresRecord (execute v) := by
  unfold execute
  cases decode v with
  | ok i => exact ignoresRecord_exec i
  | error _ => exact ignoresRecord_raiseError .illegalCmd

/-- No register write takes from the error record what it writes elsewhere; a write of `STATUS` writes only the record. -/
theorem ignoresRecord_writeReg (r : Reg) (v : Word) : IgnoresRecord (writeReg r v) := by
  cases r with
  | id | out | recov => exact ignoresRecord_raiseError .badAccess
  | cmd => exact ignoresRecord_execute v
  | status => exact fun s e c => ⟨_, _, _, writeReg_status v s, writeReg_status v _⟩
  | cover | secret | win | syn | idx => exact fun s e c => ⟨_, e, c, rfl, rfl⟩

/-- A bus write ignores the error record: its access check looks at the width and the offset only. -/
theorem ignoresRecord_busWrite (width off : Nat) (v : Word) : IgnoresRecord (busWrite width off v) := by
  unfold busWrite
  cases accessedReg width off with
  | some r => exact ignoresRecord_writeReg r v
  | none => exact ignoresRecord_raiseError .badAccess

/-- `STATUS` is the one register that shows the error record. -/
theorem readReg_withRecord {r : Reg} (hr : r ≠ .status) (s : State) (e : Bool) (c : Nibble) :
    readReg r { s with err := e, errcode := c } = readReg r s := by
  cases r with
  | status => exact absurd rfl hr
  | id | cmd | cover | secret | win | syn | idx | out | recov => rfl

/-- A read of anything but `STATUS` ignores the error record; a refused one gives 0 whatever the record holds. -/
theorem ignoresRecord_read {width off : Nat} (h : Input.read width off ≠ .read 32 0x04) :
    IgnoresRecord (perform (.read width off)) := by
  intro s e c
  simp only [perform]
  by_cases hc : accessRefused width off
  · simp only [busRead_of_refused _ hc, raiseError_eq]
    exact ⟨_, _, _, rfl, rfl⟩
  · obtain ⟨r, rfl, rfl⟩ := exists_offset_of_not_accessRefused hc
    have hr : r ≠ .status := fun hr => h (congrArg (Input.read 32 ·.offset) hr)
    simp only [busRead_offset, readReg_withRecord hr]
    exact ⟨_, e, c, rfl, rfl⟩

/-- Every input but a read of `STATUS` ignores the error record. -/
theorem ignoresRecord_perform {x : Input} (h : x ≠ .read 32 0x04) : IgnoresRecord (perform x) := by
  cases x with
  | read width off => exact ignoresRecord_read h
  | write width off v => exact ignoresRecord_busWrite width off v
  | reset => exact fun s e c => ⟨_, false, 0#4, rfl, rfl⟩

/-- The error record and the values given to the host are no part of the data. -/
theorem sameData_withRecord (t : State) (e : Bool) (c : Nibble) (l : List Word) :
    State.sameData { t with err := e, errcode := c, returned := l } t :=
  ⟨rfl, rfl, rfl, rfl, rfl, rfl, rfl, rfl, rfl⟩

/-- A read of `STATUS` gives the `STATUS` word to the host. -/
theorem perform_read_status (s : State) : perform (.read 32 0x04) s = .next (giveHost (statusWord s) s) := by
  have hread : busRead 32 0x04 s = (statusWord s, s) := busRead_offset .status s
  rw [perform, hread]

/-- While `ERR` is 1 a further error leaves the record as it was. -/
theorem errorRecord_of_error_while_err {x : Input} {s t : State} (herr : s.err = true)
    (hx : x.isBadAccess ∨ x.isIllegalCmd) (ht : perform x s = .next t) : t.err = true ∧ t.errcode = s.errcode := by
  rcases hx with hbad | hill
  · simpa only [if_pos herr] using errorRecord_of_isBadAccess hbad ht
  · simpa only [if_pos herr] using errorRecord_of_isIllegalCmd hill ht

/-- Settles O19: a read of `STATUS` shows the record to the host, and every other input ignores it. -/
theorem errorsDoNotBlock : Obligations.ErrorsDoNotBlock := by
  unfold Obligations.ErrorsDoNotBlock
  intro x s e c
  by_cases hx : x = .read 32 0x04
  · subst hx
    exact ⟨_, _, perform_read_status s, perform_read_status _, sameData_withRecord _ _ _ _, (absurd rfl ·),
      fun herr herror => errorRecord_of_error_while_err herr herror (perform_read_status s)⟩
  · obtain ⟨t, e', c', ht, hu⟩ := ignoresRecord_perform hx s e c
    exact ⟨t, _, ht, hu, sameData_withRecord t e' c' _, fun _ => rfl,
      fun herr herror => errorRecord_of_error_while_err herr herror ht⟩

end Sys2Proof.Machine

/-! ### The reset input (70_reset_and_hazards.md R93) -/

namespace Sys2Proof.Machine

/-- The reset input answers the engine after reset. -/
theorem perform_reset (s : State) : perform .reset s = .next (resetEngine s) := rfl

/-- A read of `ID` gives its fixed word from any state and changes nothing (R14). -/
theorem busRead_id (s : State) : busRead 32 0x00 s = (idWord, s) := busRead_offset .id s

/-- A read of `STATUS` gives the `STATUS` word and changes nothing. -/
theorem busRead_status (s : State) : busRead 32 0x04 s = (statusWord s, s) := busRead_offset .status s

/-- `STATUS` reads 0 while no flag is set and no error code is recorded (R15). -/
theorem statusWord_eq_zero {s : State} (herr : s.err = false) (hflip : s.flip = false) (hvalid : s.valid = false)
    (hcode : s.errcode = 0) : statusWord s = 0 := by
  rw [statusWord, herr, hflip, hvalid, hcode]
  decide

/-- Settles O21: the reset input writes the reset value to every register and flag, so the `STATUS` word is 0; the `ID`
word depends on no state. -/
theorem resetSetsEveryRegister : Obligations.ResetSetsEveryRegister := by
  unfold Obligations.ResetSetsEveryRegister
  intro s
  have hstatus : statusWord (resetEngine s) = 0 :=
    statusWord_eq_zero (resetEngine_err s) (resetEngine_flip s) (resetEngine_valid s) (resetEngine_errcode s)
  refine ⟨resetEngine s, perform_reset s, ?_⟩
  rw [busRead_id, busRead_id, busRead_status, hstatus]
  simp [idWord]

end Sys2Proof.Machine

/-! ### The host protocol (80_host_interface.md R102 to R116) -/

namespace Sys2Proof.Machine

/-! #### One channel of a block through the engine (R111, R114) -/

@[simp] theorem andThen_next {α β : Type} (a : α) (f : α → Host.Outcome β Fault Refusal) :
    andThen (.next a) f = f a := rfl

/-- A host write is the write of that register. -/
theorem hostWrite_eq (r : Reg) (v : Word) (s : State) : hostWrite r v s = writeReg r v s :=
  busWrite_offset r v s

/-- A host read answers the register and leaves the engine as it is. -/
theorem hostRead_eq (r : Reg) (s : State) : hostRead r s = .next (readReg r s, s) :=
  congrArg Host.Outcome.next (busRead_offset r s)

/-- A host write of a command's word to `CMD` runs the command. -/
theorem hostWrite_cmd (i : Instr) (s : State) : hostWrite .cmd (encode i) s = exec i s :=
  (hostWrite_eq .cmd (encode i) s).trans (writeReg_cmd_encode i s)

/-- A byte put on the bus comes back in lane 0. -/
theorem lane_zero_setWidth (b : Byte) : lane (b.setWidth 32) 0 = b := by
  rw [lane, Nat.mul_zero, ← BitVec.setWidth_eq_extractLsb' (by decide), BitVec.setWidth_setWidth_of_le _ (by decide),
    BitVec.setWidth_eq]

/-- The write of `SECRET` takes the byte the host put on the bus. -/
theorem hostWrite_secret (b : Byte) (s : State) : hostWrite .secret (b.setWidth 32) s = .next (setSecret b s) := by
  have hb : (b.setWidth 32).extractLsb' 0 8 = b := lane_zero_setWidth b
  rw [hostWrite_eq, writeReg, hb]

/-- `embed_block` runs `EMBED` on the two operands it wrote, then reads `OUT`. -/
theorem embedBlock_eq (c : Word) (b : Byte) (s : State) :
    embedBlock c b s = andThen (exec .embed (setSecret b (setCover c s))) (hostRead .out) := by
  rw [embedBlock, hostWrite_eq, writeReg, andThen_next, hostWrite_secret, andThen_next, hostWrite_cmd]

/-- `embed_block` completes and returns the scattered corrected window, from any engine state. -/
theorem embedBlock_next (c : Word) (b : Byte) (s : State) :
    ∃ t, embedBlock c b s = .next (scatter c (embedNibble (gather c) (nibble b)), t) := by
  rw [embedBlock_eq, exec_embed _ rfl rfl rfl, andThen_next, hostRead_eq, embedNibble, embedIndex_eq]
  exact ⟨_, rfl⟩

/-- `extract_block` runs `EXTRACT` on the cover it wrote, then reads `RECOV`. -/
theorem extractBlock_eq (c : Word) (s : State) :
    extractBlock c s = andThen (exec .extract (setCover c s)) (hostRead .recov) := by
  rw [extractBlock, hostWrite_eq, writeReg, andThen_next, hostWrite_cmd]

/-- `extract_block` completes and returns the byte reconstructed from the window's product, from any engine state. -/
theorem extractBlock_next (c : Word) (s : State) :
    ∃ t, extractBlock c s = .next ((reconstruct (multiply (gather c))).setWidth 32, t) := by
  rw [extractBlock_eq, exec_extract, andThen_next, hostRead_eq]
  exact ⟨_, rfl⟩

/-! #### Grids that differ from another in some pixels -/

/-- The coordinates inside a grid. -/
theorem Grid.inside_iff (g : Grid) (x y : Nat) : g.inside x y = true ↔ x < g.width ∧ y < g.height := by
  rw [Grid.inside, Bool.and_eq_true, decide_eq_true_iff, decide_eq_true_iff]

/-- `o` is `g` with the pixels at the coordinates in `hit` overwritten by what `v` gives for them. -/
structure Painted (hit : Nat → Nat → Prop) (v : Nat → Nat → Pixel) (g o : Grid) : Prop where
  width  : o.width = g.width
  height : o.height = g.height
  wf     : o.wf = true
  get    : ∀ x y, hit x y → g.inside x y = true → o.get x y = v x y
  keep   : ∀ x y, ¬ hit x y → o.get x y = g.get x y

namespace Painted

variable {hit hit' : Nat → Nat → Prop} {v : Nat → Nat → Pixel} {g o o' : Grid}

/-- A painted grid has the coordinates of the one it was painted on. -/
theorem inside (h : Painted hit v g o) (x y : Nat) : o.inside x y = g.inside x y := by
  rw [Grid.inside, Grid.inside, h.width, h.height]

/-- Only which coordinates are hit matters. -/
theorem congr (h : Painted hit v g o) (hiff : ∀ x y, hit x y ↔ hit' x y) : Painted hit' v g o where
  width := h.width
  height := h.height
  wf := h.wf
  get x y hh := h.get x y ((hiff x y).mpr hh)
  keep x y hh := h.keep x y (mt (hiff x y).mp hh)

/-- Nothing painted. -/
theorem refl (v : Nat → Nat → Pixel) (hg : g.wf = true) : Painted (fun _ _ => False) v g g where
  width := rfl
  height := rfl
  wf := hg
  get _ _ hh := hh.elim
  keep _ _ _ := rfl

/-- Painting twice with one `v` paints both sets of coordinates. -/
theorem trans (h : Painted hit v g o) (h' : Painted hit' v o o') :
    Painted (fun x y => hit x y ∨ hit' x y) v g o' where
  width := h'.width.trans h.width
  height := h'.height.trans h.height
  wf := h'.wf
  get x y hh hin := by
    by_cases hlast : hit' x y
    · exact h'.get x y hlast ((h.inside x y).trans hin)
    · exact (h'.keep x y hlast).trans (h.get x y (hh.resolve_right hlast) hin)
  keep x y hh := (h'.keep x y fun hc => hh (.inr hc)).trans (h.keep x y fun hc => hh (.inl hc))

/-- Writing one pixel paints its coordinate. -/
theorem set (hg : g.wf = true) {x y : Nat} {p : Pixel} (hp : v x y = p) :
    Painted (fun x' y' => x' = x ∧ y' = y) v g (g.set x y p) where
  width := g.set_width x y p
  height := g.set_height x y p
  wf := g.set_wf x y p hg
  get x' y' := by
    rintro ⟨rfl, rfl⟩ hin
    rw [g.get_set _ _ _ _ _ hg, if_pos ⟨rfl, rfl, hin⟩, hp]
  keep x' y' hh := by
    rw [g.get_set _ _ _ _ _ hg, if_neg fun hc => hh ⟨hc.1, hc.2.1⟩]

/-- A list of writes, each painting coordinates of its own, paints them all: in whatever order, since `v` is one. -/
theorem foldl {β : Type} {hits : β → Nat → Nat → Prop} {f : Grid → β → Grid} (bs : List β)
    (hf : ∀ b ∈ bs, ∀ o : Grid, o.wf = true → Painted (hits b) v o (f o b)) (hg : g.wf = true) :
    Painted (fun x y => ∃ b ∈ bs, hits b x y) v g (bs.foldl f g) := by
  induction bs generalizing g with
  | nil => exact (refl v hg).congr fun x y => by simp
  | cons b bs ih =>
    have hb : Painted (hits b) v g (f g b) := hf b List.mem_cons_self g hg
    have hbs := ih (fun b' hb' => hf b' (List.mem_cons_of_mem b hb')) hb.wf
    exact (hb.trans hbs).congr fun x y => (List.exists_mem_cons_iff (hits · x y) b bs).symm

end Painted

/-- The pixel with the given channels. -/
def pixelOf (f : Channel → Byte) : Pixel := ⟨f .r, f .g, f .b⟩

@[simp] theorem channelOf_pixelOf (c : Channel) (f : Channel → Byte) : channelOf c (pixelOf f) = f c := by
  cases c <;> rfl

/-! #### The walk of `merge` (R105 to R112) -/

/-- The word `embed_block` returns for a channel of block `k` of column `x`. -/
def stegoWord (C S : Grid) (x k : Nat) (c : Channel) : Word :=
  scatter (blockWord C x k c)
    (embedNibble (gather (blockWord C x k c)) (nibble (channelOf c (secretPixel S x k))))

/-- The stego pixel at a coordinate of a block: its lane of the block's three words. -/
def stegoPixel (C S : Grid) (x y : Nat) : Pixel := pixelOf fun c => lane (stegoWord C S x (y / 4) c) (y % 4)

/-- Row `4k + j` of a column is row `j` of block `k`. -/
theorem stegoPixel_row (C S : Grid) (x k : Nat) {j : Nat} (hj : j < 4) :
    stegoPixel C S x (4 * k + j) = pixelOf fun c => lane (stegoWord C S x k c) j := by
  have hdiv : (4 * k + j) / 4 = k := by omega
  have hmod : (4 * k + j) % 4 = j := by omega
  rw [stegoPixel, hdiv, hmod]

/-- R112: the four pixels of block `b` in the output grid. -/
def putStego (C S o : Grid) (b : Nat × Nat) : Grid :=
  writeBack o b.1 b.2 (stegoWord C S b.1 b.2 .r) (stegoWord C S b.1 b.2 .g) (stegoWord C S b.1 b.2 .b)

/-- A block of `merge` completes from any engine state. -/
theorem mergeBlock_next (C S o : Grid) (x k : Nat) (s : State) :
    ∃ t, mergeBlock C S x k o s = .next (putStego C S o (x, k), t) := by
  obtain ⟨t₁, hr⟩ := embedBlock_next (blockWord C x k .r) (channelOf .r (secretPixel S x k)) s
  obtain ⟨t₂, hg⟩ := embedBlock_next (blockWord C x k .g) (channelOf .g (secretPixel S x k)) t₁
  obtain ⟨t₃, hb⟩ := embedBlock_next (blockWord C x k .b) (channelOf .b (secretPixel S x k)) t₂
  refine ⟨t₃, ?_⟩
  rw [mergeBlock, hr, andThen_next, hg, andThen_next, hb, andThen_next]
  rfl

/-- The walk of `merge` completes, its output being the blocks put into the grid one after another. -/
theorem mergeWalk_next (C S : Grid) (bs : List (Nat × Nat)) (o : Grid) (s : State) :
    ∃ t, mergeWalk C S bs o s = .next (bs.foldl (putStego C S) o, t) := by
  induction bs generalizing o s with
  | nil => exact ⟨s, rfl⟩
  | cons b bs ih =>
    obtain ⟨u, hu⟩ := mergeBlock_next C S o b.1 b.2 s
    obtain ⟨t, ht⟩ := ih (putStego C S o b) u
    exact ⟨t, by rw [mergeWalk, hu, andThen_next, ht, List.foldl_cons]⟩

/-- A block's write-back paints the four rows `4k` to `4k + 3` of its column. -/
theorem painted_putStego (C S : Grid) {o : Grid} (b : Nat × Nat) (ho : o.wf = true) :
    Painted (fun x y => (x, y / 4) = b) (stegoPixel C S) o (putStego C S o b) := by
  obtain ⟨x, k⟩ := b
  have hrow : ∀ j ∈ List.range 4, ∀ o : Grid, o.wf = true → Painted (fun x' y' => x' = x ∧ y' = 4 * k + j)
      (stegoPixel C S) o (o.set x (4 * k + j) (pixelOf fun c => lane (stegoWord C S x k c) j)) :=
    fun j hj _ ho => .set ho (stegoPixel_row C S x k (List.mem_range.mp hj))
  refine (Painted.foldl (List.range 4) hrow ho).congr fun x' y' => ?_
  rw [Prod.mk.injEq]
  constructor
  · rintro ⟨j, hj, rfl, rfl⟩
    have hlt : j < 4 := List.mem_range.mp hj
    exact ⟨rfl, by omega⟩
  · rintro ⟨rfl, rfl⟩
    exact ⟨y' % 4, List.mem_range.mpr (Nat.mod_lt _ (by decide)), rfl, (Nat.div_add_mod y' 4).symm⟩

/-- The blocks of a list, put into a grid, paint every pixel of theirs and no other. -/
theorem painted_foldl_putStego (C S : Grid) (bs : List (Nat × Nat)) {o : Grid} (ho : o.wf = true) :
    Painted (fun x y => (x, y / 4) ∈ bs) (stegoPixel C S) o (bs.foldl (putStego C S) o) :=
  (Painted.foldl bs (fun b _ _ ho => painted_putStego C S b ho) ho).congr fun _ _ => exists_eq_right'

/-- R104: a secret that fits is merged by the walk over the cover's blocks. -/
theorem merge_of_fits (params : HostParams) {C S : Grid} (s : State)
    (h : S.width ≤ C.width ∧ S.height ≤ C.height) :
    merge params C S s = .ok (mergeWalk C S (walkOrder params.rowBound C.width C.height) C s) :=
  if_pos h

/-- R104: a secret that does not fit is the host's error, before any engine access. -/
theorem merge_of_not_fits (params : HostParams) {C S : Grid} (s : State)
    (h : ¬ (S.width ≤ C.width ∧ S.height ≤ C.height)) : merge params C S s = .error .dimensionError :=
  if_neg h

/-- R110's pixel by cases of the cursor `(k, x)`. -/
theorem secretPixel_eq (S : Grid) (x k : Nat) :
    secretPixel S x k = if k < S.width ∧ x < S.height then S.get k x else Pixel.black :=
  if_congr (S.inside_iff k x) rfl rfl

/-- A walked block lies in the column. -/
theorem four_mul_add_four_le_of_lt_blocksPerColumn {b : RowBound} {height k : Nat}
    (h : k < blocksPerColumn b height) : 4 * k + 4 ≤ height := by
  cases b with
  | inclusive => rw [blocksPerColumn] at h; omega
  | exclusive =>
    rw [blocksPerColumn] at h
    split at h <;> omega

/-- Settles O52: the check is the branch `merge` takes first, and the other branch answers no error. -/
theorem mergeChecksDimensionsFirst : Obligations.MergeChecksDimensionsFirst := by
  unfold Obligations.MergeChecksDimensionsFirst
  intro params C S s
  constructor
  · intro herror hfits
    rw [merge_of_fits params s hfits] at herror
    cases herror
  · exact merge_of_not_fits params s

/-- Settles O53: the walk paints the stego pixels of its blocks on the cover; pixel `4k + j` of a column belongs to
block `k`, which the walk visits, and a row below the last block to none it visits. -/
theorem mergeEmbedsEveryBlock : Obligations.MergeEmbedsEveryBlock := by
  unfold Obligations.MergeEmbedsEveryBlock
  intro params C S s hwf hwidth hheight
  obtain ⟨t, ht⟩ := mergeWalk_next C S (walkOrder params.rowBound C.width C.height) C s
  have hpainted := painted_foldl_putStego C S (walkOrder params.rowBound C.width C.height) hwf
  refine ⟨_, t, (merge_of_fits params s ⟨hwidth, hheight⟩).trans (congrArg _ ht), hpainted.width, hpainted.height,
    hpainted.wf, fun x k j c hx hk hj => ?block, fun x y hy => hpainted.keep x y ?below⟩
  case block =>
    have hrows := four_mul_add_four_le_of_lt_blocksPerColumn hk
    have hvisited : (x, (4 * k + j) / 4) ∈ walkOrder params.rowBound C.width C.height :=
      (mem_walkOrder _ _ _ _ _).mpr ⟨hx, by omega⟩
    have hinside : C.inside x (4 * k + j) = true := (C.inside_iff _ _).mpr ⟨hx, by omega⟩
    rw [hpainted.get x (4 * k + j) hvisited hinside, stegoPixel_row C S x k hj, channelOf_pixelOf, stegoWord,
      secretPixel_eq]
    rfl
  case below =>
    rw [mem_walkOrder]
    omega

/-! #### The walk of `unmerge` (R113 to R116) -/

/-- The pixel recovered from block `k` of column `x`. -/
def recoveredPixel (T : Grid) (x k : Nat) : Pixel :=
  pixelOf fun c => reconstruct (multiply (gather (blockWord T x k c)))

/-- R116: the pixel recovered from block `b`, at the cursor position `(k, x)` of the output grid. -/
def putRecovered (T u : Grid) (b : Nat × Nat) : Grid := u.set b.2 b.1 (recoveredPixel T b.1 b.2)

/-- The recovered pixel is written at the cursor; outside the grid a write does nothing either way. -/
theorem placeRecovered_eq_set (u : Grid) (x k : Nat) (p : Pixel) : placeRecovered u x k p = u.set k x p := by
  by_cases h : u.inside k x = true
  · exact if_pos h
  · exact (if_neg h).trans (if_neg h).symm

/-- A block of `unmerge` completes from any engine state. -/
theorem unmergeBlock_next (T u : Grid) (x k : Nat) (s : State) :
    ∃ t, unmergeBlock T x k u s = .next (putRecovered T u (x, k), t) := by
  obtain ⟨t₁, hr⟩ := extractBlock_next (blockWord T x k .r) s
  obtain ⟨t₂, hg⟩ := extractBlock_next (blockWord T x k .g) t₁
  obtain ⟨t₃, hb⟩ := extractBlock_next (blockWord T x k .b) t₂
  refine ⟨t₃, ?_⟩
  rw [unmergeBlock, hr, andThen_next, hg, andThen_next, hb, andThen_next, placeRecovered_eq_set]
  simp only [lane_zero_setWidth]
  rfl

/-- The walk of `unmerge` completes, its output being the recovered pixels put into the grid one after another. -/
theorem unmergeWalk_next (T : Grid) (bs : List (Nat × Nat)) (u : Grid) (s : State) :
    ∃ t, unmergeWalk T bs u s = .next (bs.foldl (putRecovered T) u, t) := by
  induction bs generalizing u s with
  | nil => exact ⟨s, rfl⟩
  | cons b bs ih =>
    obtain ⟨s', hs'⟩ := unmergeBlock_next T u b.1 b.2 s
    obtain ⟨t, ht⟩ := ih (putRecovered T u b) s'
    exact ⟨t, by rw [unmergeWalk, hs', andThen_next, ht, List.foldl_cons]⟩

/-- The recovered pixels of a list of blocks paint their cursors, block `k` of column `x` at `(k, x)`. -/
theorem painted_foldl_recovered (T : Grid) (bs : List (Nat × Nat)) {u : Grid} (hu : u.wf = true) :
    Painted (fun x y => (y, x) ∈ bs) (fun x y => recoveredPixel T y x) u
      (bs.foldl (putRecovered T) u) := by
  refine (Painted.foldl bs (fun b _ u hu => .set hu rfl) hu).congr fun x y => ?_
  constructor
  · rintro ⟨b, hb, rfl, rfl⟩
    exact hb
  · exact fun h => ⟨(y, x), h, rfl, rfl⟩

/-- A blank grid reads its colour at every coordinate inside it. -/
theorem Grid.get_blank {w h x y : Nat} (p : Pixel) (hx : x < w) (hy : y < h) : (Grid.blank w h p).get x y = p := by
  have hindex : y * w + x < w * h := by nlinarith
  rw [Grid.get, if_pos ((Grid.inside_iff _ _ _).mpr ⟨hx, hy⟩)]
  simp [Grid.blank, List.getD_eq_getElem?_getD, hindex]

/-- Settles O54: the walk paints the recovered pixels on the blank grid; `(k, x)` is painted exactly when the walk
visits block `k` of column `x`. -/
theorem unmergeRecoversEveryBlock : Obligations.UnmergeRecoversEveryBlock := by
  unfold Obligations.UnmergeRecoversEveryBlock
  intro params T s
  obtain ⟨t, ht⟩ := unmergeWalk_next T (walkOrder params.rowBound T.width T.height)
    (Grid.blank T.width T.height params.background) s
  have hpainted := painted_foldl_recovered T (walkOrder params.rowBound T.width T.height)
    (Grid.blank_wf T.width T.height params.background)
  refine ⟨_, t, ht, hpainted.width, hpainted.height, fun k x hk hx => ?_⟩
  have hvisited := mem_walkOrder params.rowBound T.width T.height x k
  split
  · next h =>
    have hinside : (Grid.blank T.width T.height params.background).inside k x = true :=
      (Grid.inside_iff _ _ _).mpr ⟨hk, hx⟩
    exact hpainted.get k x (hvisited.mpr h.symm) hinside
  · next h =>
    exact (hpainted.keep k x fun hc => h (hvisited.mp hc).symm).trans (Grid.get_blank _ hk hx)

end Sys2Proof.Machine

/-! ### Decoding and encoding agree (30_encoding.md R49 to R52) -/

namespace Sys2Proof.Machine

/-- The word of a command has its reserved bits 0 and an assigned opcode. -/
theorem commandWordWellFormed_encode (i : Instr) : commandWordWellFormed (encode i) = true := by
  cases i <;> rfl

/-- A rejected word is not well-formed: a reserved bit is set, or its opcode is reserved. -/
theorem not_commandWordWellFormed_of_decode_error {v : Word} (h : ∃ e, decode v = .error e) :
    ¬ commandWordWellFormed v = true := by
  intro hwf
  simp only [commandWordWellFormed, reservedBitsZero, opcodeAssigned, toNat_opcode, Bool.and_eq_true, beq_iff_eq,
    Bool.not_eq_true', Bool.and_eq_false_iff, decide_eq_false_iff_not] at hwf
  obtain ⟨hrsv, hop⟩ := hwf
  have hlow := toNat_lt_of_reservedBits_eq_zero hrsv
  have hrejected := (decode_error_iff v).mp h
  omega

/-- The accepted words are the well-formed ones. -/
theorem commandWordWellFormed_iff (v : Word) : commandWordWellFormed v = true ↔ ∃ i, decode v = .ok i := by
  constructor
  · intro hwf
    cases hdec : decode v with
    | ok i => exact ⟨i, rfl⟩
    | error e => exact absurd hwf (not_commandWordWellFormed_of_decode_error ⟨e, hdec⟩)
  · rintro ⟨i, hdec⟩
    rw [(decode_eq_ok_iff v i).mp hdec]
    exact commandWordWellFormed_encode i

/-- Different commands have different words. -/
theorem encode_injective : Function.Injective encode := by
  intro i j h
  have hok : Except.ok (ε := DecodeError) i = .ok j := by rw [← decode_encode i, h, decode_encode j]
  exact Except.ok.inj hok

/-- R50's match is on the whole word: the mask keeps every bit. -/
theorem rowMatches_iff (row : String × Instr) (v : Word) : rowMatches row v = true ↔ v = encode row.2 := by
  rw [rowMatches, beq_iff_eq, show 0xFFFFFFFF#32 = BitVec.allOnes 32 from rfl, BitVec.and_allOnes]

/-- No command has two rows. -/
theorem opcodeRows_commands_nodup : (opcodeRows.map Prod.snd).Nodup := by decide

/-- Settles O3: the round trip by the word of each command, the converse by the whole-word match, and the rows by the
command, which a matched word determines. -/
theorem decodeEncodeAgree : Obligations.DecodeEncodeAgree := by
  unfold Obligations.DecodeEncodeAgree
  refine ⟨fun i _ => decode_encode i, fun v i h => ((decode_eq_ok_iff v i).mp h).symm, commandWordWellFormed_iff,
    fun v a b ha hb hav hbv => ?rows⟩
  have hcommand : a.2 = b.2 := encode_injective (((rowMatches_iff a v).mp hav).symm.trans ((rowMatches_iff b v).mp hbv))
  exact List.inj_on_of_nodup_map opcodeRows_commands_nodup ha hb hcommand

/-- Settles O1: each of the five words is the word of its command. -/
theorem familyWordsDecode : Obligations.FamilyWordsDecode := by
  unfold Obligations.FamilyWordsDecode
  exact ⟨decode_encode .nop, decode_encode .synd, decode_encode .embed, decode_encode .scatter, decode_encode .clear⟩

end Sys2Proof.Machine

/-! ### What a command and a register write leave unchanged (10_state.md §5) -/

namespace Sys2Proof.Machine

/-- Settles O35, command by command: a command's meaning is the writes of the registers it names. -/
theorem commandFrames : Obligations.CommandFrames := by
  unfold Obligations.CommandFrames
  intro i s t h
  cases i <;> cases h <;> simp

/-- The frame of a host write of a register other than `CMD`: at most that register and the error record change. -/
theorem writeReg_frames {r : Reg} {v : Word} {s t : State} (hr : r ≠ .cmd) (h : writeReg r v s = .next t) :
    (r ≠ .cover → t.cover = s.cover) ∧ (r ≠ .secret → t.secret = s.secret) ∧ (r ≠ .win → t.win = s.win) ∧
    (r ≠ .syn → t.syn = s.syn) ∧ (r ≠ .idx → t.idx = s.idx) ∧ t.out = s.out ∧ t.recov = s.recov ∧
    t.flip = s.flip ∧ t.valid = s.valid := by
  cases r with
  | cmd => exact absurd rfl hr
  | status => cases (writeReg_status v s).symm.trans h; simp
  | id | out | recov => cases h; simp
  | cover | secret | win | syn | idx => cases h; simp

end Sys2Proof.Machine

/-! ### A step and a run (70_reset_and_hazards.md §4, 20_memory.md R44) -/

namespace Sys2Proof.Machine

/-- A step with an input pending performs it, with the input taken off the host's list. -/
theorem step_of_pending {s : State} {x : Input} {rest : List Input} (h : s.pending = x :: rest) :
    step s = perform x { s with pending := rest } := by
  rw [step, performNext, h]

/-- Settles O7: the case of a step with no input. -/
theorem stepWithoutAccessIsIdle : Obligations.StepWithoutAccessIsIdle := by
  unfold Obligations.StepWithoutAccessIsIdle
  intro s h
  rw [step, performNext, h]

/-- A write of `CMD` whose word decodes to `i` runs `i`. -/
theorem perform_cmdWrite {v : Word} {i : Instr} (h : decode v = .ok i) (s : State) :
    perform (.write 32 0x08 v) s = exec i s := by
  calc perform (.write 32 0x08 v) s = execute v s := busWrite_offset .cmd v s
    _ = exec i s := by rw [execute, h]

/-- Settles O6: the step performs the write of `CMD`, which runs the command. -/
theorem stepRunsDecodedCommand : Obligations.StepRunsDecodedCommand := by
  unfold Obligations.StepRunsDecodedCommand
  intro s v i rest hp hdec
  rw [step_of_pending hp, perform_cmdWrite hdec]

/-- The values given to the host after one input: a read adds its value in front. -/
theorem perform_returned {x : Input} {s t : State} (h : perform x s = .next t) :
    t.returned = match x with
      | .read width off => (busRead width off s).1 :: s.returned
      | .write _ _ _ => s.returned
      | .reset => s.returned := by
  cases x with
  | read width off => cases h; simp [busRead_host]
  | write width off v =>
    obtain ⟨u, hu, -, hr⟩ := busWrite_next width off v s
    cases hu.symm.trans h
    exact hr
  | reset => cases h; rfl

/-- Settles O10: the step is the input performed with the rest pending, which it keeps. -/
theorem stepConsumesOneAccess : Obligations.StepConsumesOneAccess := by
  unfold Obligations.StepConsumesOneAccess
  intro s x rest hp
  obtain ⟨t, ht, hrest⟩ := perform_next x { s with pending := rest }
  refine ⟨t, (step_of_pending hp).trans ht, hrest, (perform_returned ht).trans ?_⟩
  cases x <;> rfl

/-- A run of one more step is that step, then the run from the state it answers. -/
theorem run_succ_of_step (M : Host.Core) {s u : M.State} (h : M.step s = .next u) (n : Nat) :
    M.run (n + 1) s = M.run n u := by
  rw [Host.Core.run, h]

/-- Settles O8: every step answers a next state, so a run goes on to its end. -/
theorem runNeverStops : Obligations.RunNeverStops := by
  unfold Obligations.RunNeverStops
  intro n
  induction n with
  | zero => exact fun s => ⟨s, rfl⟩
  | succ n ih =>
    intro s
    obtain ⟨u, hu⟩ := step_next s
    obtain ⟨t, ht⟩ := ih u
    exact ⟨t, (run_succ_of_step core hu n).trans ht⟩

/-! #### The engine does not look at the inputs not yet performed (R13) -/

/-- Recording an error ignores the host's list. -/
theorem raiseError_withPending (e : ErrorCode) (s : State) (l : List Input) :
    raiseError e { s with pending := l } = { raiseError e s with pending := l } := by
  rw [raiseError_eq, raiseError_eq]

/-- Reading a register ignores the host's list. -/
theorem readReg_withPending (r : Reg) (s : State) (l : List Input) :
    readReg r { s with pending := l } = readReg r s := by
  cases r <;> rfl

/-- A bus read ignores the host's list. -/
theorem busRead_withPending (width off : Nat) (s : State) (l : List Input) :
    busRead width off { s with pending := l } =
      ((busRead width off s).1, { (busRead width off s).2 with pending := l }) := by
  unfold busRead
  cases accessedReg width off with
  | some r => exact Prod.ext (readReg_withPending r s l) rfl
  | none => exact Prod.ext rfl (raiseError_withPending .badAccess s l)

/-- A command ignores the host's list. -/
theorem exec_withPending {i : Instr} {s t : State} (l : List Input) (h : exec i s = .next t) :
    exec i { s with pending := l } = .next { t with pending := l } := by
  cases i <;> cases h <;> rfl

/-- A write of a register ignores the host's list. -/
theorem writeReg_withPending {r : Reg} {v : Word} {s t : State} (l : List Input) (h : writeReg r v s = .next t) :
    writeReg r v { s with pending := l } = .next { t with pending := l } := by
  cases r with
  | cmd =>
    rw [writeReg, execute] at h ⊢
    cases hdec : decode v with
    | ok i => rw [hdec] at h; exact exec_withPending l h
    | error e => rw [hdec] at h; cases h; exact congrArg _ (raiseError_withPending _ s l)
  | status => cases (writeReg_status v s).symm.trans h; exact writeReg_status v _
  | id | out | recov => cases h; exact congrArg _ (raiseError_withPending _ s l)
  | cover | secret | win | syn | idx => cases h; rfl

/-- Performing an input ignores the inputs behind it. -/
theorem perform_withPending {x : Input} {s t : State} (l : List Input) (h : perform x s = .next t) :
    perform x { s with pending := l } = .next { t with pending := l } := by
  cases x with
  | reset => cases h; rfl
  | read width off => cases h; rw [perform, busRead_withPending]; rfl
  | write width off v =>
    rw [perform, busWrite] at h ⊢
    cases ha : accessedReg width off with
    | some r => rw [ha] at h; exact writeReg_withPending l h
    | none => rw [ha] at h; cases h; exact congrArg _ (raiseError_withPending _ s l)

/-- Settles O9, by induction on the list: the first step performs the first input, whatever is pending behind it. -/
theorem runPerformsAccessesInOrder : Obligations.RunPerformsAccessesInOrder := by
  unfold Obligations.RunPerformsAccessesInOrder
  intro l rest
  induction l with
  | nil => exact fun s => rfl
  | cons x l ih =>
    intro s
    obtain ⟨u, hu, hrest⟩ := perform_next x { s with pending := rest }
    have hafter : perform x { s with pending := l ++ rest } = .next { u with pending := l ++ rest } :=
      perform_withPending (s := { s with pending := rest }) (l ++ rest) hu
    have hstep : core.step { s with pending := x :: (l ++ rest) } = .next { u with pending := l ++ rest } :=
      (step_of_pending (s := { s with pending := x :: (l ++ rest) }) rfl).trans hafter
    have hsame : { u with pending := rest } = u := congrArg (fun p => { u with pending := p }) hrest.symm
    have hfirst : performAll (x :: l) { s with pending := rest } = performAll l u := by rw [performAll, hu]
    rw [hfirst, ← hsame]
    exact (run_succ_of_step core hstep l.length).trans (ih u)

end Sys2Proof.Machine

/-! ### Who can change a register over a step (10_state.md R17 to R28) -/

namespace Sys2Proof.Machine

/-- Everything a step can do with its first input: reset the engine, run the command of the input, write a register
other than `CMD`, or leave every register and data flag. -/
theorem step_effects {s t : State} {x : Input} {rest : List Input} (hp : s.pending = x :: rest)
    (ht : step s = .next t) :
    x = .reset ∨ (∃ i, x.runs i ∧ exec i { s with pending := rest } = .next t) ∨
    (∃ r v, r ≠ .cmd ∧ x = .write 32 r.offset v ∧ writeReg r v { s with pending := rest } = .next t) ∨
    State.sameData t s := by
  rw [step_of_pending hp] at ht
  rcases perform_cases x _ t ht with hreset | ⟨i, v, hx, hdec, hexec⟩ | hwrite | hsame
  · exact .inl hreset
  · rw [(decode_eq_ok_iff v i).mp hdec] at hx
    exact .inr (.inl ⟨i, hx, hexec⟩)
  · exact .inr (.inr (.inl hwrite))
  · exact .inr (.inr (.inr hsame))

/-- The data registers and data flags: the engine's state without the error record. -/
inductive DataField where
  | cover | secret | win | syn | idx | out | recov | flip | valid

/-- Two states agree on a field. -/
def State.agreeOn (t s : State) : DataField → Prop
  | .cover => t.cover = s.cover
  | .secret => t.secret = s.secret
  | .win => t.win = s.win
  | .syn => t.syn = s.syn
  | .idx => t.idx = s.idx
  | .out => t.out = s.out
  | .recov => t.recov = s.recov
  | .flip => t.flip = s.flip
  | .valid => t.valid = s.valid

/-- The commands the spec's table names as writers of a field (R33). -/
def DataField.commands : DataField → List Instr
  | .cover => [.clear]
  | .secret => [.clear]
  | .win => [.gather, .correct, .embed, .extract, .clear]
  | .syn => [.synd, .embed, .extract, .clear]
  | .idx => [.decode, .embed, .clear]
  | .out => [.scatter, .embed, .clear]
  | .recov => [.recover, .extract, .clear]
  | .flip => [.correct, .embed, .clear]
  | .valid => [.decode, .embed, .clear]

/-- The register a host write of which changes a field, if the host can write it at all (R17 to R27). -/
def DataField.hostWritten : DataField → List Reg
  | .cover => [.cover]
  | .secret => [.secret]
  | .win => [.win]
  | .syn => [.syn]
  | .idx => [.idx]
  | .out | .recov | .flip | .valid => []

/-- A command leaves every field whose writers do not include it. -/
theorem exec_agreeOn {i : Instr} {s t : State} {d : DataField} (h : exec i s = .next t) (hi : i ∉ d.commands) :
    t.agreeOn s d := by
  obtain ⟨hoperands, hwin, hsyn, hidx, hout, hrecov, hflip, hvalid, -⟩ := commandFrames i s t h
  cases d with
  | cover => exact (hoperands (List.ne_of_not_mem_cons hi)).1
  | secret => exact (hoperands (List.ne_of_not_mem_cons hi)).2
  | win => exact hwin hi
  | syn => exact hsyn hi
  | idx => exact hidx hi
  | out => exact hout hi
  | recov => exact hrecov hi
  | flip => exact hflip hi
  | valid => exact hvalid hi

/-- A host write of a register other than `CMD` leaves every field but the one it writes. -/
theorem writeReg_agreeOn {r : Reg} {v : Word} {s t : State} {d : DataField} (hr : r ≠ .cmd)
    (h : writeReg r v s = .next t) (hd : r ∉ d.hostWritten) : t.agreeOn s d := by
  cases r with
  | cmd => exact absurd rfl hr
  | status => cases (writeReg_status v s).symm.trans h; cases d <;> rfl
  | id | out | recov => cases h; cases d <;> simp [State.agreeOn]
  | cover | secret | win | syn | idx => cases h; cases d <;> simp [State.agreeOn, DataField.hostWritten] at hd ⊢

/-- States with the same data agree on every field. -/
theorem agreeOn_of_sameData {s t : State} (h : State.sameData t s) (d : DataField) : t.agreeOn s d := by
  obtain ⟨hcover, hsecret, hwin, hsyn, hidx, hout, hrecov, hflip, hvalid⟩ := h
  cases d <;> assumption

/-- Over a step a field changes only by a host write of its own register, by one of the commands that write it, or by
reset. -/
theorem writers_of_change {s t : State} {x : Input} {rest : List Input} (hp : s.pending = x :: rest)
    (ht : step s = .next t) (d : DataField) (hchange : ¬ t.agreeOn s d) :
    (∃ r ∈ d.hostWritten, x.writesOffset r.offset) ∨ (∃ i ∈ d.commands, x.runs i) ∨ x = .reset := by
  have hlist : ∀ u : State, u.agreeOn { s with pending := rest } d → u.agreeOn s d := by
    intro u hu
    cases d <;> exact hu
  rcases step_effects hp ht with hreset | ⟨i, hx, hexec⟩ | ⟨r, v, hr, hx, hwrite⟩ | hsame
  · exact .inr (.inr hreset)
  · have hi : i ∈ d.commands := by
      by_contra hi
      exact hchange (hlist t (exec_agreeOn hexec hi))
    exact .inr (.inl ⟨i, hi, hx⟩)
  · have hmem : r ∈ d.hostWritten := by
      by_contra hmem
      exact hchange (hlist t (writeReg_agreeOn hr hwrite hmem))
    exact .inl ⟨r, hmem, v, hx⟩
  · exact absurd (agreeOn_of_sameData hsame d) hchange

/-- Settles O37, the rows `COVER` and `SECRET` of the table of writers. -/
theorem coverAndSecretWriters : Obligations.CoverAndSecretWriters := by
  unfold Obligations.CoverAndSecretWriters
  intro s t x rest hp ht
  have hwriters := writers_of_change hp ht
  refine ⟨fun hc => ?_, fun hc => ?_⟩
  · simpa [DataField.hostWritten, DataField.commands, Reg.offset] using hwriters .cover hc
  · simpa [DataField.hostWritten, DataField.commands, Reg.offset] using hwriters .secret hc

/-- Settles O38, the rows `WIN`, `SYN` and `IDX`. -/
theorem windowSyndromeIndexWriters : Obligations.WindowSyndromeIndexWriters := by
  unfold Obligations.WindowSyndromeIndexWriters
  intro s t x rest hp ht
  have hwriters := writers_of_change hp ht
  refine ⟨fun hc => ?_, fun hc => ?_, fun hc => ?_⟩
  · simpa [DataField.hostWritten, DataField.commands, Reg.offset, or_assoc] using hwriters .win hc
  · simpa [DataField.hostWritten, DataField.commands, Reg.offset, or_assoc] using hwriters .syn hc
  · simpa [DataField.hostWritten, DataField.commands, Reg.offset, or_assoc] using hwriters .idx hc

/-- Settles O39, the rows `OUT`, `RECOV`, `FLIP` and `VALID`, which no host write changes. -/
theorem resultAndFlagWriters : Obligations.ResultAndFlagWriters := by
  unfold Obligations.ResultAndFlagWriters
  intro s t x rest hp ht
  have hwriters := writers_of_change hp ht
  refine ⟨fun hc => ?_, fun hc => ?_, fun hc => ?_, fun hc => ?_⟩
  · simpa [DataField.hostWritten, DataField.commands, or_assoc] using hwriters .out hc
  · simpa [DataField.hostWritten, DataField.commands, or_assoc] using hwriters .recov hc
  · simpa [DataField.hostWritten, DataField.commands, or_assoc] using hwriters .flip hc
  · simpa [DataField.hostWritten, DataField.commands, or_assoc] using hwriters .valid hc

end Sys2Proof.Machine

/-! ### The error record and the invariant over a step (60_exceptions.md R81 to R86, 10_state.md R23, R28) -/

namespace Sys2Proof.Machine

/-- What an input does to the error record, by the classes of R83, R84 and R86: cleared, set by an error, or kept. -/
theorem errorRecord_cases (x : Input) {s t : State} (ht : perform x s = .next t) :
    (x.clearsErrors ∧ t.err = false ∧ t.errcode = 0#4) ∨
    (∃ k : ErrorCode, t.err = true ∧ t.errcode = if s.err = true then s.errcode else k.code) ∨
    (t.err = s.err ∧ t.errcode = s.errcode) := by
  by_cases hc : x.clearsErrors
  · exact .inl ⟨hc, errorRecord_of_clearsErrors hc ht⟩
  by_cases hb : x.isBadAccess
  · exact .inr (.inl ⟨.badAccess, errorRecord_of_isBadAccess hb ht⟩)
  by_cases hi : x.isIllegalCmd
  · exact .inr (.inl ⟨.illegalCmd, errorRecord_of_isIllegalCmd hi ht⟩)
  · exact .inr (.inr (errorRecord_kept hc hb hi ht))

/-- Settles O20: an idle step keeps the record, and of the inputs only those of R86 clear it. -/
theorem onlyStatusWriteOrResetClearsError : Obligations.OnlyStatusWriteOrResetClearsError := by
  unfold Obligations.OnlyStatusWriteOrResetClearsError
  intro s t ht herr
  rcases step_cases s with ⟨-, hidle⟩ | ⟨x, rest, hp, hstep⟩
  · cases hidle.symm.trans ht
    exact .inl ⟨herr, rfl⟩
  · rcases errorRecord_cases x (hstep.symm.trans ht) with ⟨hx, hclear⟩ | ⟨k, hset, hcode⟩ | ⟨hkeep, hcode⟩
    · exact .inr ⟨hclear.1, hclear.2, x, rest, hp, hx⟩
    · exact .inl ⟨hset, hcode.trans (if_pos herr)⟩
    · exact .inl ⟨hkeep.trans herr, hcode⟩

/-- The part of the invariant about the error record is kept by every input. -/
theorem perform_keeps_errorRecord {x : Input} {s t : State} (hcode : s.errcode = 0 ↔ s.err = false)
    (hle : s.errcode.toNat ≤ 2) (ht : perform x s = .next t) :
    (t.errcode = 0 ↔ t.err = false) ∧ t.errcode.toNat ≤ 2 := by
  rcases errorRecord_cases x ht with ⟨-, herr, hzero⟩ | ⟨k, herr, hrecorded⟩ | ⟨herr, hsame⟩
  · rw [herr, hzero]
    decide
  · rw [herr, hrecorded]
    cases hs : s.err with
    | false => rw [if_neg Bool.false_ne_true]; cases k <;> decide
    | true => simpa [hs, hle] using hcode
  · rw [herr, hsame]
    exact ⟨hcode, hle⟩

/-- The commands that write `RECOV` write a reconstructed byte or 0, so its low nibble is 0 after any of them. -/
theorem exec_recov_low {i : Instr} {s t : State} (h : exec i s = .next t) (hi : i ∈ DataField.recov.commands) :
    t.recov.extractLsb' 0 4 = 0#4 := by
  cases i with
  | recover => cases h; exact extractLsb'_low_reconstruct s.syn
  | extract => cases h; exact extractLsb'_low_reconstruct (extractNibble (gather s.cover))
  | clear => cases h; rfl
  | nop | gather | synd | decode | correct | scatter | embed => simp [DataField.commands] at hi

/-- The part of the invariant about `RECOV` is kept by every input. -/
theorem perform_keeps_recov_low {x : Input} {s t : State} (hlow : s.recov.extractLsb' 0 4 = 0#4)
    (ht : perform x s = .next t) : t.recov.extractLsb' 0 4 = 0#4 := by
  have hkept : t.agreeOn s .recov → t.recov.extractLsb' 0 4 = 0#4 := fun h => (congrArg _ h).trans hlow
  rcases perform_cases x s t ht with rfl | ⟨i, v, -, -, hexec⟩ | ⟨r, v, hr, -, hwrite⟩ | hsame
  · cases ht; rfl
  · by_cases hi : i ∈ DataField.recov.commands
    · exact exec_recov_low hexec hi
    · exact hkept (exec_agreeOn hexec hi)
  · exact hkept (writeReg_agreeOn hr hwrite List.not_mem_nil)
  · exact hkept (agreeOn_of_sameData hsame .recov)

/-- The invariant is one of registers: the host's list does not enter it. -/
theorem inv_withPending {s : State} (h : s.Inv) (l : List Input) : State.Inv { s with pending := l } := h

/-- Every input keeps the invariant, from any state that meets it. -/
theorem perform_keeps_inv {x : Input} {s t : State} (h : s.Inv) (ht : perform x s = .next t) : t.Inv := by
  obtain ⟨hcode, hle, hlow⟩ := h
  obtain ⟨hcode', hle'⟩ := perform_keeps_errorRecord hcode hle ht
  exact ⟨hcode', hle', perform_keeps_recov_low hlow ht⟩

/-- Settles O23: an idle step answers its own state, any other step performs an input. -/
theorem everyStepKeepsInvariant : Obligations.EveryStepKeepsInvariant := by
  unfold Obligations.EveryStepKeepsInvariant
  intro s t hinv ht
  rcases step_cases s with ⟨-, hidle⟩ | ⟨x, rest, -, hstep⟩
  · cases hidle.symm.trans ht
    exact hinv
  · exact perform_keeps_inv (inv_withPending hinv rest) (hstep.symm.trans ht)

/-- Settles O22: every register of the reset state is 0. -/
theorem resetStateHoldsInvariant : Obligations.ResetStateHoldsInvariant := by
  unfold Obligations.ResetStateHoldsInvariant
  exact ⟨⟨by decide, by decide, by decide⟩, rfl⟩

end Sys2Proof.Machine

/-! ### Accesses by the host (20_memory.md R38 to R42, R85, 10_state.md R17 to R21) -/

namespace Sys2Proof.Machine

/-- Cutting a word to its low `n` bits is masking it. -/
theorem setWidth_extractLsb'_low (v : Word) {n : Nat} (hn : n ≤ 32) :
    (v.extractLsb' 0 n).setWidth 32 = v &&& BitVec.ofNat 32 (2 ^ n - 1) := by
  have hpow : 2 ^ n ≤ 2 ^ 32 := Nat.pow_le_pow_right (by decide) hn
  have hpos : 0 < 2 ^ n := Nat.two_pow_pos n
  apply BitVec.eq_of_toNat_eq
  rw [BitVec.toNat_and, BitVec.toNat_ofNat, Nat.mod_eq_of_lt (by omega), Nat.and_two_pow_sub_one_eq_mod,
    BitVec.toNat_setWidth, BitVec.extractLsb'_toNat, Nat.shiftRight_zero, Nat.mod_eq_of_lt]
  exact (Nat.mod_lt _ hpos).trans_le hpow

/-- A host write of a register that completes in `t` is read back from `t`. -/
theorem write_then_read {r : Reg} {v m : Word} {s t : State} (hwrite : writeReg r v s = .next t)
    (hread : readReg r t = m) : ∃ t, busWrite 32 r.offset v s = .next t ∧ busRead 32 r.offset t = (m, t) :=
  ⟨t, (busWrite_offset r v s).trans hwrite, (busRead_offset r t).trans (by rw [hread])⟩

/-- Settles O14: each register keeps the low bits of its width, and a read extends them with zeros. -/
theorem hostWriteThenReadMasksToWidth : Obligations.HostWriteThenReadMasksToWidth := by
  unfold Obligations.HostWriteThenReadMasksToWidth
  intro s v om hom
  simp only [List.mem_cons, List.not_mem_nil, or_false] at hom
  rcases hom with rfl | rfl | rfl | rfl | rfl
  · exact write_then_read (r := .cover) rfl BitVec.and_allOnes.symm
  · exact write_then_read (r := .secret) rfl (setWidth_extractLsb'_low v (by decide))
  · exact write_then_read (r := .win) rfl (setWidth_extractLsb'_low v (by decide))
  · exact write_then_read (r := .syn) rfl (setWidth_extractLsb'_low v (by decide))
  · exact write_then_read (r := .idx) rfl (setWidth_extractLsb'_low v (by decide))

/-- Settles O15: a performed read changes nothing; a refused one gives 0 and touches only the error record. -/
theorem readsAreIdempotent : Obligations.ReadsAreIdempotent := by
  unfold Obligations.ReadsAreIdempotent
  intro width off s
  by_cases h : accessRefused width off
  · have hsame : State.sameData (raiseError .badAccess s) s := by
      rw [raiseError_eq]
      exact sameData_withRecord s _ _ s.returned
    rw [busRead_of_refused s h, busRead_of_refused _ h]
    exact ⟨rfl, hsame⟩
  · obtain ⟨r, rfl, rfl⟩ := exists_offset_of_not_accessRefused h
    rw [busRead_offset, busRead_offset]
    exact ⟨rfl, rfl, rfl, rfl, rfl, rfl, rfl, rfl, rfl, rfl⟩

/-- Settles O16: the access check turns the write away before its data, whatever it is. -/
theorem refusedAccessIgnoresData : Obligations.RefusedAccessIgnoresData := by
  unfold Obligations.RefusedAccessIgnoresData
  intro width off v v' s h
  have hrefused : ∀ u, busWrite width off u s = .next (raiseError .badAccess s) :=
    fun u => busWrite_of_isBadAccess s (.inl h)
  exact ⟨(hrefused v).trans (hrefused v').symm, hrefused v⟩

/-- Settles O59: the four lanes of R41, one by one. -/
theorem byteLanesAreLittleEndian : Obligations.ByteLanesAreLittleEndian := by
  unfold Obligations.ByteLanesAreLittleEndian
  intro i r
  exact ⟨rfl, rfl⟩

end Sys2Proof.Machine

/-! ### The product, its matrix and the embedding (41_gf2_engine.md R57 to R63, 42_window_codec.md R66, R68) -/

namespace Sys2Proof.Machine

/-! #### The matrix (R57, R63) -/

/-- Settles O40: the entries by R57's formula, one by one. -/
theorem parityMatrixRows : Obligations.ParityMatrixRows := by
  unfold Obligations.ParityMatrixRows
  decide

/-- Settles O28, for each of the 16 differences. -/
theorem columnMatcherGivesTheIndex : Obligations.ColumnMatcherGivesTheIndex := by
  unfold Obligations.ColumnMatcherGivesTheIndex
  decide

/-- R57's formula: column `k` of the matrix is the binary form of `k`, row 1 its bit 3. -/
theorem parityMatrix_eq_getLsbD {r k : Nat} (h1 : 1 ≤ r) (h4 : r ≤ 4) :
    parityMatrix r k = (BitVec.ofNat 4 k).getLsbD (4 - r) := by
  have hlt : 4 - r < 4 := by omega
  rw [parityMatrix, Config.syndromeLength, Nat.testBit_shiftRight, Nat.add_zero, BitVec.getLsbD_ofNat,
    decide_eq_true hlt, Bool.true_and]

/-- Two 4-bit values are equal if they agree in the bits of rows 1 to 4. -/
theorem nibble_eq_of_rows {a b : Nibble} (h : ∀ r, 1 ≤ r → r ≤ 4 → a.getLsbD (4 - r) = b.getLsbD (4 - r)) : a = b := by
  refine BitVec.eq_of_getLsbD_eq fun i hi => ?_
  have hrow : 4 - (4 - i) = i := by omega
  have hbit := h (4 - i) (by omega) (by omega)
  rwa [hrow] at hbit

/-! #### Linearity and the closed form (R58) -/

/-- The product of any matrix is linear. -/
theorem multiplyWith_xor (H : Nat → Nat → Bool) (a b : Window) :
    multiplyWith H (a ^^^ b) = multiplyWith H a ^^^ multiplyWith H b := by
  refine nibble_eq_of_rows fun r h1 h4 => ?_
  rw [BitVec.getLsbD_xor]
  simp only [getLsbD_multiplyWith H _ r h1 h4, dotRow]
  rw [← xorOver_xor]
  simp only [pos_xor, Bool.and_xor_distrib_left]

/-- One bit of an exclusive OR of selected values is the sum over GF(2) of that bit of the selected values. -/
theorem getLsbD_foldl_xor (l : List Nat) (selected : Nat → Bool) (value : Nat → Nibble) (acc : Nibble) (j : Nat) :
    (l.foldl (fun acc q => if selected q = true then acc ^^^ value q else acc) acc).getLsbD j =
      (l.map fun q => (value q).getLsbD j && selected q).foldl xor (acc.getLsbD j) := by
  induction l generalizing acc with
  | nil => rfl
  | cons q l ih =>
    rw [List.foldl_cons, ih, List.map_cons, List.foldl_cons]
    cases selected q <;> simp

/-- The product is the exclusive OR of the positions of the 1 bits: position `q + 1` is column `q + 1` of the matrix. -/
theorem multiply_eq_foldl (w : Window) :
    multiply w =
      (List.range 15).foldl (fun acc q => if w.getLsbD (14 - q) = true then acc ^^^ BitVec.ofNat 4 (q + 1) else acc)
        0#4 := by
  refine nibble_eq_of_rows fun r h1 h4 => ?_
  rw [multiply, getLsbD_multiplyWith _ _ r h1 h4, dotRow, xorOver_eq_foldl,
    getLsbD_foldl_xor _ (fun q => w.getLsbD (14 - q)) (fun q => BitVec.ofNat 4 (q + 1)), BitVec.getLsbD_zero]
  simp only [pos_succ, parityMatrix_eq_getLsbD h1 h4]

/-- Settles O41: the closed form, linearity, and the product of a single 1. -/
theorem productIsXorOfPositions : Obligations.ProductIsXorOfPositions := by
  unfold Obligations.ProductIsXorOfPositions
  refine ⟨multiply_eq_foldl, multiplyWith_xor parityMatrix, fun w k h1 h15 => ?_⟩
  have hsingle : BitVec.ofNat 15 (2 ^ (15 - k)) = 1#15 <<< (15 - k) :=
    congrArg (BitVec.ofNat 15) (Nat.one_shiftLeft (15 - k)).symm
  rw [hsingle, ← multiply_single h1 h15]
  exact multiplyWith_xor parityMatrix w _

/-! #### The embedding meets the source's guarantee (R66, R68) -/

/-- The product of the one-hot word of an index is the index. -/
theorem multiply_oneHot (i : Nibble) : multiply (oneHot i) = i := by
  by_cases hi : i = 0#4
  · subst hi
    decide
  · have hpos : 1 ≤ i.toNat := Nat.one_le_iff_ne_zero.mpr fun h => hi (BitVec.eq_of_toNat_eq h)
    rw [oneHot_eq_shiftLeft, multiply_single hpos (Nat.le_of_lt_succ i.isLt), BitVec.ofNat_toNat, BitVec.setWidth_eq]

/-- Correcting a window at an index adds the index to its product. -/
theorem multiply_flipAt (w : Window) (i : Nibble) : multiply (flipAt w i) = multiply w ^^^ i := by
  calc multiply (flipAt w i) = multiply (w ^^^ oneHot i) := by rw [flipAt_eq_xor_oneHot]
    _ = multiply w ^^^ multiply (oneHot i) := multiplyWith_xor parityMatrix w (oneHot i)
    _ = multiply w ^^^ i := by rw [multiply_oneHot]

/-- Extracting from the embedded window gives the nibble: the difference is added to the product it was taken from. -/
theorem multiply_embedNibble (w : Window) (n : Nibble) : multiply (embedNibble w n) = n := by
  rw [embedNibble, embedIndex_eq, multiply_flipAt, BitVec.xor_comm n, ← BitVec.xor_assoc, BitVec.xor_self,
    BitVec.zero_xor]

/-- Settles O46: the product of the embedded window, the corrector by cases of the index, and index 0. -/
theorem matrixEmbeddingProperties : Obligations.MatrixEmbeddingProperties := by
  unfold Obligations.MatrixEmbeddingProperties
  refine fun w n => ⟨multiply_embedNibble w n, ?oneEdit, ?noOp⟩
  case oneEdit =>
    by_cases hi : embedIndex w n = 0#4
    · exact .inl (by rw [embedNibble, hi, flipAt_zero])
    · have hpos : 1 ≤ (embedIndex w n).toNat := Nat.one_le_iff_ne_zero.mpr fun h => hi (BitVec.eq_of_toNat_eq h)
      obtain ⟨hflip, -, -⟩ := flipChangesOnlyTheIndexedPosition w (embedIndex w n)
      exact .inr ⟨(embedIndex w n).toNat, hpos, Nat.le_of_lt_succ (embedIndex w n).isLt, hflip⟩
  case noOp =>
    intro hn
    rw [embedNibble, embedIndex_eq, hn, BitVec.xor_self]
    exact flipAt_zero w

/-! #### The guarantee forces the matrix (R57, derived) -/

/-- Only the entries of rows 1 to 4 and columns 1 to 15 enter a product. -/
theorem multiplyWith_congr {H H' : Nat → Nat → Bool}
    (h : ∀ r k, 1 ≤ r → r ≤ 4 → 1 ≤ k → k ≤ 15 → H r k = H' r k) (w : Window) :
    multiplyWith H w = multiplyWith H' w := by
  have hterms : ∀ r, 1 ≤ r → r ≤ 4 → dotRow H r w = dotRow H' r w := by
    intro r h1 h4
    rw [dotRow, dotRow, xorOver_eq_foldl, xorOver_eq_foldl]
    refine congrArg (List.foldl xor false) (List.map_congr_left fun q hq => ?_)
    have hlt : q < 15 := List.mem_range.mp hq
    rw [h r (q + 1) h1 h4 (by omega) (by omega)]
  refine nibble_eq_of_rows fun r h1 h4 => ?_
  rw [getLsbD_multiplyWith H w r h1 h4, getLsbD_multiplyWith H' w r h1 h4, hterms r h1 h4]

/-- Settles O42. The matrix has the property, since it is the engine's. Conversely the property at the zero window and
the nibble `k` says that column `k` is `k`: the corrected window is a single 1 at position `k`. -/
theorem parityMatrixIsForced : Obligations.ParityMatrixIsForced := by
  unfold Obligations.ParityMatrixIsForced
  intro H
  constructor
  · intro hguarantee r k h1 h4 hk hk15
    have hzero : multiplyWith H 0#15 = 0#4 := by
      simpa using multiplyWith_xor H 0#15 0#15
    have hindex : (BitVec.ofNat 4 k).toNat = k := by
      rw [BitVec.toNat_ofNat]
      exact Nat.mod_eq_of_lt (by omega)
    have hcolumn : multiplyWith H (1#15 <<< (15 - k)) = BitVec.ofNat 4 k := by
      have h := hguarantee 0#15 (BitVec.ofNat 4 k)
      rwa [hzero, BitVec.xor_zero, syndromeIndex_eq, flipAt_eq_xor_oneHot, BitVec.zero_xor, oneHot_eq_shiftLeft,
        hindex] at h
    calc H r k = (multiplyWith H (1#15 <<< (15 - k))).getLsbD (4 - r) :=
          (getLsbD_multiplyWith_single H h1 h4 hk hk15).symm
      _ = parityMatrix r k := by rw [hcolumn, parityMatrix_eq_getLsbD h1 h4]
  · intro hentries w n
    have hmultiply : ∀ v, multiplyWith H v = multiply v := multiplyWith_congr hentries
    rw [hmultiply, hmultiply]
    exact multiply_embedNibble w n

end Sys2Proof.Machine

/-! ### `gather`, `scatter` and the lanes of a word (43_bitfield.md R71, R73, 10_state.md R17) -/

namespace Sys2Proof.Machine

/-- The window put into a word is read back from it. -/
theorem gather_scatter (c : Word) (w : Window) : gather (scatter c w) = w := by
  refine BitVec.eq_of_getLsbD_eq fun j hj => ?_
  rw [getLsbD_gather _ j hj]
  split_ifs <;>
    simp (disch := omega) only [getLsbD_scatter, if_pos, if_neg, Nat.add_sub_cancel_left, Nat.add_sub_of_le]

/-- A bit that carries no window position is the cover's own. -/
theorem getLsbD_scatter_of_not_mem (c : Word) (w : Window) {j : Nat} (hj : j < 32) (h : j ∉ carrierBits) :
    (scatter c w).getLsbD j = c.getLsbD j := by
  simp only [carrierBits, List.mem_cons, List.not_mem_nil, or_false, not_or] at h
  rw [getLsbD_scatter c w j hj]
  grind

/-- The mask of the high bits of every lane is 0 at the bits that carry window positions. -/
theorem getLsbD_highBitsMask {j : Nat} (h : j ∈ carrierBits) : (0xF0F0F0F8#32).getLsbD j = false := by
  revert j
  decide

/-- Settles O47: both ways round bit by bit; under the mask only the cover's own bits are left. -/
theorem gatherScatterInverse : Obligations.GatherScatterInverse := by
  unfold Obligations.GatherScatterInverse
  refine ⟨gather_scatter, scatter_gather, fun c w => BitVec.eq_of_getLsbD_eq fun j hj => ?_⟩
  rw [BitVec.getLsbD_and, BitVec.getLsbD_and]
  by_cases h : j ∈ carrierBits
  · rw [getLsbD_highBitsMask h, Bool.and_false, Bool.and_false]
  · rw [getLsbD_scatter_of_not_mem c w hj h]

/-- A word is its four lanes, lane 0 lowest. -/
theorem packLanes_lane (v : Word) : packLanes (lane v 0) (lane v 1) (lane v 2) (lane v 3) = v := by
  have h32 : lane v 3 ++ lane v 2 = v.extractLsb' 16 16 := BitVec.extractLsb'_append_extractLsb'_eq_extractLsb' rfl
  have h321 : v.extractLsb' 16 16 ++ lane v 1 = v.extractLsb' 8 24 :=
    BitVec.extractLsb'_append_extractLsb'_eq_extractLsb' rfl
  have h3210 : v.extractLsb' 8 24 ++ lane v 0 = v.extractLsb' 0 32 :=
    BitVec.extractLsb'_append_extractLsb'_eq_extractLsb' rfl
  rw [packLanes, h32, h321, h3210, BitVec.extractLsb'_eq_self]

/-- Four packed bytes, each at its shift (R111). -/
theorem packLanes_eq_or (b1 b2 b3 b4 : Byte) :
    packLanes b1 b2 b3 b4 =
      b1.setWidth 32 ||| (b2.setWidth 32 <<< 8) ||| (b3.setWidth 32 <<< 16) ||| (b4.setWidth 32 <<< 24) := by
  refine BitVec.eq_of_getLsbD_eq fun j hj => ?_
  simp only [packLanes, BitVec.getLsbD_append, BitVec.getLsbD_or, BitVec.getLsbD_shiftLeft, BitVec.getLsbD_setWidth]
  interval_cases j <;> simp

/-- `EMBED` completes and leaves in `OUT` the cover with its corrected window. -/
theorem exec_embed_out (s : State) :
    ∃ t, exec .embed s = .next t ∧ t.out = scatter s.cover (embedNibble (gather s.cover) (nibble s.secret)) :=
  ⟨_, exec_embed s rfl rfl rfl, by rw [embedNibble, embedIndex_eq]⟩

/-- Settles O48: `EXTRACT` gathers the corrected window `EMBED` scattered, and its product is the nibble. -/
theorem extractRecoversWhatEmbedHid : Obligations.ExtractRecoversWhatEmbedHid := by
  unfold Obligations.ExtractRecoversWhatEmbedHid
  intro s s'
  obtain ⟨t, ht, hout⟩ := exec_embed_out s
  have hread : (busRead 32 0x20 t).1 = t.out := congrArg Prod.fst (busRead_offset .out t)
  refine ⟨t, setCover t.out s', _, ht, ?write, exec_extract _, ?recov⟩
  case write =>
    rw [hread]
    exact busWrite_offset .cover t.out s'
  case recov =>
    rw [setCover_cover, hout, gather_scatter, multiply_embedNibble]
    rfl

end Sys2Proof.Machine

/-! ### Lists of accesses by the host (30_encoding.md R56, 80_host_interface.md R111, R114) -/

namespace Sys2Proof.Machine

/-- A write of a register, then the accesses behind it. -/
theorem performAll_write (r : Reg) (v : Word) (l : List Input) (s : State) :
    performAll (.write 32 r.offset v :: l) s = andThen (writeReg r v s) (performAll l) := by
  rw [performAll, perform, busWrite_offset]
  cases writeReg r v s <;> rfl

/-- A command, then the accesses behind it. -/
theorem performAll_cmd (i : Instr) (l : List Input) (s : State) :
    performAll (cmd i :: l) s = andThen (exec i s) (performAll l) := by
  rw [cmd, wr, performAll_write, writeReg_cmd_encode]

/-- A read of a register gives its value to the host, and the accesses behind it follow. -/
theorem performAll_read (r : Reg) (l : List Input) (s : State) :
    performAll (.read 32 r.offset :: l) s = performAll l (giveHost (readReg r s) s) := by
  rw [performAll, perform, busRead_offset]

/-- Settles O49: the commands of each sequence answer what the composite answers; the other two are register writes. -/
theorem pseudoInstructionsExpand : Obligations.PseudoInstructionsExpand := by
  unfold Obligations.PseudoInstructionsExpand
  intro s c x
  refine ⟨?embed, ?extract, rfl, rfl⟩
  case embed =>
    simp only [Stmt.accesses, embedSeq, List.map_cons, List.map_nil, performAll_cmd]
    rw [← exec_embedSeq]
    rfl
  case extract =>
    simp only [Stmt.accesses, extractSeq, List.map_cons, List.map_nil, performAll_cmd]
    rw [← exec_extractSeq]
    rfl

/-- The four accesses of `embed_block` (R111). -/
def embedAccesses (c : Word) (b : Byte) : List Input :=
  [.write 32 0x0C c, .write 32 0x10 (b.setWidth 32), .write 32 0x08 0x00000007#32, .read 32 0x20]

/-- `embed_block` in any state: it completes in a state `t` that keeps the error record and the host's side; its four
accesses, performed one after another, end in `t` with the value given to the host. -/
theorem embedBlock_accesses (c : Word) (b : Byte) (s : State) :
    ∃ t, embedBlock c b s = .next (scatter c (embedNibble (gather c) (nibble b)), t) ∧
      t.err = s.err ∧ t.errcode = s.errcode ∧ t.returned = s.returned ∧
      performAll (embedAccesses c b) s = .next (giveHost (scatter c (embedNibble (gather c) (nibble b))) t) := by
  obtain ⟨t, hexec, herr, hcode, -, hreturned⟩ := exec_next .embed (setSecret b (setCover c s))
  obtain ⟨t', hexec', hout⟩ := exec_embed_out (setSecret b (setCover c s))
  cases hexec.symm.trans hexec'
  refine ⟨t, ?block, herr, hcode, hreturned, ?accesses⟩
  case block =>
    rw [embedBlock_eq, hexec, andThen_next, hostRead_eq, readReg, hout]
    rfl
  case accesses =>
    have hsecret : writeReg .secret (b.setWidth 32) (setCover c s) = .next (setSecret b (setCover c s)) :=
      (hostWrite_eq .secret _ _).symm.trans (hostWrite_secret b _)
    calc performAll (embedAccesses c b) s
      _ = andThen (writeReg .secret (b.setWidth 32) (setCover c s)) (performAll [cmd .embed, rd .out]) :=
          (performAll_write .cover c _ s).trans (performAll_write .secret _ _ _)
      _ = performAll [rd .out] t := by rw [hsecret, andThen_next, performAll_cmd, hexec, andThen_next]
      _ = .next (giveHost t.out t) := performAll_read .out [] t
      _ = _ := by rw [hout]; rfl

/-- Settles O51: the lanes by their shifts; the four steps perform the four accesses. -/
theorem embedBlockThroughTheBus : Obligations.EmbedBlockThroughTheBus := by
  unfold Obligations.EmbedBlockThroughTheBus
  refine ⟨fun C x k c => packLanes_eq_or _ _ _ _, fun c b s => ?_⟩
  obtain ⟨t, hblock, herr, hcode, hreturned, haccesses⟩ := embedBlock_accesses c b s
  refine ⟨t, hblock, herr, hcode, ?_⟩
  refine ((runPerformsAccessesInOrder (embedAccesses c b) s.pending s).trans haccesses).trans ?_
  rw [giveHost, hreturned]
  rfl

end Sys2Proof.Machine

/-! ### The walk of a column and the round trip (80_host_interface.md R107, R111, R117) -/

namespace Sys2Proof.Machine

/-- Settles O50: the bounds of R107 as integers, by the definition of each count. -/
theorem blocksOfAColumn : Obligations.BlocksOfAColumn := by
  unfold Obligations.BlocksOfAColumn
  intro height k
  simp only [blocksPerColumn]
  refine ⟨by omega, ?_, trivial, ?_, ?_⟩
  all_goals split <;> omega

/-- The word of a block whose pixels hold the lanes of `v` is `v`. -/
theorem blockWord_of_lanes {T : Grid} {x k : Nat} {c : Channel} {v : Word}
    (h : ∀ j < 4, channelOf c (T.get x (4 * k + j)) = lane v j) : blockWord T x k c = v := by
  rw [blockWord, ← packLanes_lane v, ← h 0 (by decide), ← h 1 (by decide), ← h 2 (by decide), ← h 3 (by decide)]
  rfl

/-- Settles O55: the stego block holds the scattered corrected window, whose product is the secret's nibble. -/
theorem mergeUnmergeRoundTrip : Obligations.MergeUnmergeRoundTrip := by
  unfold Obligations.MergeUnmergeRoundTrip
  intro params C S s s' hwf hwidth hheight
  obtain ⟨T, t, hmerge, hTw, hTh, -, hblocks, -⟩ := mergeEmbedsEveryBlock params C S s hwf hwidth hheight
  obtain ⟨U, t', hunmerge, -, -, hpixels⟩ := unmergeRecoversEveryBlock params T s'
  refine ⟨T, U, t, t', hmerge, hunmerge, fun sx sy hsx hsy => ?_⟩
  rw [hpixels sx sy (by omega) (by omega), hTh, hTw]
  refine if_ctx_congr Iff.rfl (fun hblock => ?_) fun _ => rfl
  have hrecovered : ∀ c, multiply (gather (blockWord T sy sx c)) = (channelOf c (S.get sx sy)).extractLsb' 4 4 := by
    intro c
    have hlanes := fun j hj => hblocks sy sx j c hblock.2 hblock.1 hj
    rw [blockWord_of_lanes hlanes, gather_scatter, multiply_embedNibble, if_pos ⟨hsx, hsy⟩]
  rw [hrecovered .r, hrecovered .g, hrecovered .b]
  rfl

end Sys2Proof.Machine

/-! ### Several engines on a platform (60_exceptions.md R91, 20_memory.md R35, R36) -/

namespace Sys2Proof.Machine

/-- A step of engine `k`, which exists, is that engine's own step, put back in its place. -/
theorem stepInst_of_step {p : Platform} {k : Nat} {i : EngineInst} {e : State} (hk : p.insts[k]? = some i)
    (he : step i.engine = .next e) : p.stepInst k = .next ⟨p.insts.set k ⟨i.base, e⟩⟩ := by
  rw [Platform.stepInst, hk]
  simp only [he]

/-- A step of an engine that does not exist changes nothing. -/
theorem stepInst_of_none {p : Platform} {k : Nat} (hk : p.insts[k]? = none) : p.stepInst k = .next p := by
  rw [Platform.stepInst, hk]

/-- Settles O56: the step is the engine's own, put back in its place in the list, which leaves every other place. -/
theorem instancesShareNoState : Obligations.InstancesShareNoState := by
  unfold Obligations.InstancesShareNoState
  intro p k
  cases hk : p.insts[k]? with
  | none => exact ⟨p, stepInst_of_none hk, rfl, fun _ _ => rfl, fun i hi => by cases hi⟩
  | some i =>
    obtain ⟨e, he⟩ := step_next i.engine
    obtain ⟨hlt, -⟩ := List.getElem?_eq_some_iff.mp hk
    refine ⟨_, stepInst_of_step hk he, List.length_set, fun j hj => List.getElem?_set_ne hj.symm, fun i' hi => ?_⟩
    cases hi
    exact ⟨e, he, List.getElem?_set_self hlt⟩

/-- Settles O57: neither step changes the engine the other one steps, and the two places are written independently. -/
theorem stepsOfInstancesCommute : Obligations.StepsOfInstancesCommute := by
  unfold Obligations.StepsOfInstancesCommute
  intro p j k hjk
  cases hj : p.insts[j]? with
  | none =>
    obtain ⟨q, hq, -, hothers, -⟩ := instancesShareNoState p k
    rw [stepInst_of_none hj, hq, andThen_next, andThen_next, hq, stepInst_of_none ((hothers j hjk).trans hj)]
  | some a =>
    obtain ⟨e, he⟩ := step_next a.engine
    cases hk : p.insts[k]? with
    | none =>
      have hk' : (p.insts.set j ⟨a.base, e⟩)[k]? = none := (List.getElem?_set_ne hjk).trans hk
      rw [stepInst_of_step hj he, stepInst_of_none hk, andThen_next, andThen_next, stepInst_of_step hj he]
      exact stepInst_of_none hk'
    | some b =>
      obtain ⟨f, hf⟩ := step_next b.engine
      have hk' : (p.insts.set j ⟨a.base, e⟩)[k]? = some b := (List.getElem?_set_ne hjk).trans hk
      have hj' : (p.insts.set k ⟨b.base, f⟩)[j]? = some a := (List.getElem?_set_ne hjk.symm).trans hj
      rw [stepInst_of_step hj he, stepInst_of_step hk hf, andThen_next, andThen_next]
      refine (stepInst_of_step hk' hf).trans (Eq.trans ?_ (stepInst_of_step hj' he).symm)
      exact congrArg (fun l => Host.Outcome.next (Platform.mk l)) (List.set_comm _ _ hjk)

/-- A request outside every window is routed nowhere. -/
theorem routeIn_of_no_owner {q : BusRequest} {insts : List EngineInst} (h : ∀ i ∈ insts, ¬ i.owns q.addr = true) :
    routeIn q insts = none := by
  induction insts with
  | nil => rfl
  | cons i rest ih =>
    obtain ⟨hi, hrest⟩ := List.forall_mem_cons.mp h
    rw [routeIn, if_neg hi, ih hrest, Option.map_none]

/-- A well-formed platform: every base a multiple of 64, no two the same. -/
theorem Platform.wf_iff (p : Platform) :
    p.wf = true ↔ (∀ i ∈ p.insts, i.base % 64 = 0) ∧ (p.insts.map (·.base)).Pairwise (· ≠ ·) := by
  simp [Platform.wf]

/-- Settles O58: aligned distinct windows do not overlap, so the owner is the one the request reaches. -/
theorem requestsReachTheOwningInstance : Obligations.RequestsReachTheOwningInstance := by
  unfold Obligations.RequestsReachTheOwningInstance
  intro p q hwf
  obtain ⟨haligned, hdistinct⟩ := p.wf_iff.mp hwf
  refine ⟨fun k i hk hlow hhigh => ?_, fun houtside => ?_⟩
  · have howns : i.owns q.addr = true := (i.owns_iff q.addr).mpr ⟨hlow, hhigh⟩
    rw [Platform.issue, routeIn_owner q p.insts k i haligned hdistinct hk howns]
    cases q <;> rfl
  · have hnone : ∀ i ∈ p.insts, ¬ i.owns q.addr = true := by
      intro i hi howns
      have hinside := (i.owns_iff q.addr).mp howns
      have hout := houtside i hi
      omega
    rw [Platform.issue, routeIn_of_no_owner hnone, Option.map_none]

end Sys2Proof.Machine

/-! ### Parallel block streams (80_host_interface.md R118) -/

namespace Sys2Proof.Machine

/-! #### One block of a walk, whichever walk it is -/

/-- The word the engine returns for a channel of block `b`. -/
def WalkJob.value (job : WalkJob) (b : Nat × Nat) (c : Channel) : Word :=
  match job with
  | .merge C S => stegoWord C S b.1 b.2 c
  | .unmerge T => (reconstruct (multiply (gather (blockWord T b.1 b.2 c)))).setWidth 32

/-- The output grid with the values of block `b` put in. -/
def WalkJob.writeBlock (job : WalkJob) (b : Nat × Nat) (o : Grid) : Grid :=
  job.putBlock b (job.value b .r) (job.value b .g) (job.value b .b) o

/-- The block whose values a coordinate of the output grid receives. -/
def WalkJob.blockAt (job : WalkJob) (x y : Nat) : Nat × Nat :=
  match job with
  | .merge _ _ => (x, y / 4)
  | .unmerge _ => (y, x)

/-- The pixel a coordinate of the output grid receives with its block. -/
def WalkJob.pixel (job : WalkJob) (x y : Nat) : Pixel :=
  match job with
  | .merge C S => stegoPixel C S x y
  | .unmerge T => recoveredPixel T y x

/-- The write-back of a recovered block is the recovered pixel at the block's cursor. -/
theorem writeBlock_unmerge (T u : Grid) (b : Nat × Nat) : (WalkJob.unmerge T).writeBlock b u = putRecovered T u b := by
  simp only [WalkJob.writeBlock, WalkJob.putBlock, WalkJob.value, placeRecovered_eq_set, lane_zero_setWidth]
  rfl

/-- The write-back of a block paints the coordinates of that block. -/
theorem painted_writeBlock (job : WalkJob) (b : Nat × Nat) {o : Grid} (ho : o.wf = true) :
    Painted (fun x y => job.blockAt x y = b) job.pixel o (job.writeBlock b o) := by
  cases job with
  | merge C S => exact painted_putStego C S b ho
  | unmerge T =>
    rw [writeBlock_unmerge]
    exact (painted_foldl_recovered T [b] ho).congr fun x y => List.mem_singleton

/-- `extract_block`'s three accesses end with the recovered byte given to the host. -/
theorem extractBlock_accesses (c : Word) (s : State) :
    ∃ t, performAll [wr .cover c, cmd .extract, rd .recov] s = .next t ∧
      t.returned = (reconstruct (multiply (gather c))).setWidth 32 :: s.returned := by
  obtain ⟨t, hexec, hrecov, hreturned⟩ : ∃ t, exec .extract (setCover c s) = .next t ∧
      t.recov = reconstruct (multiply (gather c)) ∧ t.returned = s.returned := ⟨_, exec_extract _, rfl, rfl⟩
  refine ⟨giveHost (t.recov.setWidth 32) t, ?_, by rw [giveHost_returned, hrecov, hreturned]⟩
  calc performAll [wr .cover c, cmd .extract, rd .recov] s
    _ = performAll [cmd .extract, rd .recov] (setCover c s) := performAll_write .cover c _ s
    _ = performAll [rd .recov] t := by rw [performAll_cmd, hexec, andThen_next]
    _ = .next (giveHost (t.recov.setWidth 32) t) := performAll_read .recov [] t

/-- Requests of a stream as the engine sees them. -/
def engineInputs (qs : List BusRequest) : List Input := qs.map (·.toInput 0)

/-- The accesses of a channel, from any engine state, give exactly the channel's value to the host. -/
theorem performAll_channelRequests (job : WalkJob) (b : Nat × Nat) (c : Channel) (s : State) :
    ∃ t, performAll (engineInputs (job.channelRequests b.1 b.2 c)) s = .next t ∧
      t.returned = job.value b c :: s.returned := by
  cases job with
  | merge C S =>
    obtain ⟨t, -, -, -, hreturned, haccesses⟩ :=
      embedBlock_accesses (blockWord C b.1 b.2 c) (channelOf c (secretPixel S b.1 b.2)) s
    exact ⟨_, haccesses, congrArg _ hreturned⟩
  | unmerge T => exact extractBlock_accesses (blockWord T b.1 b.2 c) s

/-- The accesses of a block, from any engine state, end with its three values the newest the host has. -/
theorem performAll_blockRequests (job : WalkJob) (b : Nat × Nat) (s : State) :
    ∃ t, performAll (engineInputs (job.blockRequests b)) s = .next t ∧
      t.returned = job.value b .b :: job.value b .g :: job.value b .r :: s.returned := by
  obtain ⟨t₁, h₁, hr⟩ := performAll_channelRequests job b .r s
  obtain ⟨t₂, h₂, hg⟩ := performAll_channelRequests job b .g t₁
  obtain ⟨t₃, h₃, hb⟩ := performAll_channelRequests job b .b t₂
  refine ⟨t₃, ?_, by rw [hb, hg, hr]⟩
  simp only [engineInputs, WalkJob.blockRequests, List.map_append] at h₁ h₂ h₃ ⊢
  rw [List.append_assoc, performAll_append _ _ _ _ h₁, performAll_append _ _ _ _ h₂, h₃]

/-- A block takes at most twelve accesses. -/
theorem length_nextRequests_le (job : WalkJob) (bs : List (Nat × Nat)) : (job.nextRequests bs).length ≤ 12 := by
  cases bs <;> cases job <;> simp [WalkJob.nextRequests, WalkJob.blockRequests, WalkJob.channelRequests]

/-! #### A stream and its engine -/

/-- Once the engine has performed the accesses left of the stream's block, the newest values the host has are the
block's. -/
def BlockCompletes (job : WalkJob) (st : BlockStream) (e : State) : Prop :=
  ∃ t, performAll (engineInputs st.todo) e = .next t ∧
    ∀ b bs, st.blocks = b :: bs → ∃ l, t.returned = job.value b .b :: job.value b .g :: job.value b .r :: l

/-- The stream's engine exists and is idle, and the accesses left of its block reach it and complete the block. -/
structure StreamReady (job : WalkJob) (p : Platform) (st : BlockStream) (i : EngineInst) : Prop where
  found     : p.insts[st.inst]? = some i
  idle      : i.engine.pending = []
  inWindow  : ∀ q ∈ st.todo, q.addr < 64
  completes : BlockCompletes job st i.engine

namespace StreamReady

variable {job : WalkJob} {p p' : Platform} {st : BlockStream} {i : EngineInst}

/-- Only the stream's own engine matters. -/
theorem of_sameEngine (h : StreamReady job p st i) (hsame : p'.insts[st.inst]? = p.insts[st.inst]?) :
    StreamReady job p' st i :=
  { h with found := hsame.trans h.found }

/-- A stream about to begin its next block is ready on any idle engine. -/
theorem atStart {k : Nat} (job : WalkJob) (bs : List (Nat × Nat)) (hk : p.insts[k]? = some i)
    (hidle : i.engine.pending = []) : StreamReady job p ⟨k, bs, job.nextRequests bs⟩ i where
  found := hk
  idle := hidle
  inWindow q hq := by
    cases bs with
    | nil => cases hq
    | cons b bs => exact job.blockRequests_addr b q hq
  completes := by
    cases bs with
    | nil => exact ⟨i.engine, rfl, fun b bs h => by cases h⟩
    | cons b bs =>
      obtain ⟨t, ht, hreturned⟩ := performAll_blockRequests job b i.engine
      refine ⟨t, ht, fun b' bs' h => ?_⟩
      cases h
      exact ⟨_, hreturned⟩

/-- An access of the stream changes its own engine only, and the stream is ready for the rest of its accesses. -/
theorem access {q : BusRequest} {rest : List BusRequest} (h : StreamReady job p st i) (hwf : p.wf = true)
    (htodo : st.todo = q :: rest) :
    ∃ p' i', p.accessInst st.inst q = .next p' ∧ p'.wf = true ∧
      (∀ j, j ≠ st.inst → p'.insts[j]? = p.insts[j]?) ∧ StreamReady job p' { st with todo := rest } i' := by
  obtain ⟨e, he, hpending⟩ := perform_next (q.toInput 0) i.engine
  obtain ⟨t, ht, hvalues⟩ := h.completes
  have hq : q.addr < 64 := h.inWindow q (by rw [htodo]; exact List.mem_cons_self)
  refine ⟨_, ⟨i.base, e⟩, p.accessInst_performs st.inst i q e hwf h.found h.idle hq he,
    (p.setEngine_wf st.inst i e h.found).trans hwf, fun j hj => List.getElem?_set_ne hj.symm, ?_⟩
  obtain ⟨hlt, -⟩ := List.getElem?_eq_some_iff.mp h.found
  refine ⟨List.getElem?_set_self hlt, hpending.trans h.idle, fun q' hq' => ?_, t, ?_, hvalues⟩
  · exact h.inWindow q' (by rw [htodo]; exact List.mem_cons_of_mem q hq')
  · rw [htodo, engineInputs, List.map_cons, performAll, he] at ht
    exact ht

/-- When no access of the block is left, the block's values are the last three the engine returned. -/
theorem lastThree {b : Nat × Nat} {bs : List (Nat × Nat)} (h : StreamReady job p st i) (htodo : st.todo = [])
    (hblocks : st.blocks = b :: bs) :
    p.lastThree st.inst = some (job.value b .r, job.value b .g, job.value b .b) := by
  obtain ⟨t, ht, hvalues⟩ := h.completes
  rw [htodo] at ht
  cases ht
  obtain ⟨l, hl⟩ := hvalues b bs hblocks
  simp only [Platform.lastThree, h.found, hl]

end StreamReady

/-! #### What every turn keeps -/

/-- A position of a list splits it, and writing there replaces the element between the parts. -/
theorem exists_split_of_getElem? {α : Type} {l : List α} {n : Nat} {a : α} (h : l[n]? = some a) :
    ∃ l₁ l₂, l = l₁ ++ a :: l₂ ∧ ∀ b, l.set n b = l₁ ++ b :: l₂ := by
  obtain ⟨hlt, rfl⟩ := List.getElem?_eq_some_iff.mp h
  refine ⟨l.take n, l.drop (n + 1), ?_, fun b => List.set_eq_take_append_cons_drop.trans (if_pos hlt)⟩
  rw [List.getElem_cons_drop, List.take_append_drop]

/-- Membership in a split list: in one of the parts, or the element between. -/
theorem mem_append_cons {α : Type} {l₁ l₂ : List α} {a x : α} : x ∈ l₁ ++ a :: l₂ ↔ (x ∈ l₁ ∨ x ∈ l₂) ∨ x = a := by
  rw [List.mem_append, List.mem_cons, or_assoc, or_comm (a := x = a)]

/-- An element of a split list with a property: in the first part, the one between, or in the second part. -/
theorem exists_mem_append_cons {α : Type} {l₁ l₂ : List α} {a : α} {P : α → Prop} :
    (∃ x ∈ l₁ ++ a :: l₂, P x) ↔ (∃ x ∈ l₁, P x) ∨ P a ∨ ∃ x ∈ l₂, P x := by
  simp only [List.mem_append, or_and_right, exists_or, List.exists_mem_cons_iff]

/-- What holds of a parallel walk at every turn: its streams drive the engines `ks`, every other engine is as it was on
`p₀`, each stream is ready, and the output is the grid `g` with those of the blocks `bs` put in that no stream still
has. -/
structure WalkInv (job : WalkJob) (p₀ : Platform) (g : Grid) (bs : List (Nat × Nat)) (ks : List Nat)
    (w : ParallelWalk) : Prop where
  wf      : w.platform.wf = true
  driven  : w.streams.map (·.inst) = ks
  others  : ∀ j, j ∉ ks → w.platform.insts[j]? = p₀.insts[j]?
  ready   : ∀ st ∈ w.streams, ∃ i, StreamReady job w.platform st i
  painted : ∃ done : List (Nat × Nat), (∀ b, b ∈ bs ↔ b ∈ done ∨ ∃ st ∈ w.streams, b ∈ st.blocks) ∧
    Painted (fun x y => job.blockAt x y ∈ done) job.pixel g w.output

/-- The turns a stream still needs, at most: twelve accesses and a write-back for each block. -/
def BlockStream.work (st : BlockStream) : Nat := 13 * st.blocks.length + st.todo.length

/-- The turns a walk still needs, at most. -/
def ParallelWalk.work (w : ParallelWalk) : Nat := (w.streams.map BlockStream.work).sum

/-- Less work in one stream is less work in the walk. -/
theorem work_lt_of_stream {w w' : ParallelWalk} {l₁ l₂ : List BlockStream} {st st' : BlockStream}
    (h : w.streams = l₁ ++ st :: l₂) (h' : w'.streams = l₁ ++ st' :: l₂) (hlt : st'.work < st.work) :
    w'.work < w.work := by
  rw [ParallelWalk.work, ParallelWalk.work, h, h']
  simpa using hlt

namespace WalkInv

variable {job : WalkJob} {p₀ : Platform} {g : Grid} {bs : List (Nat × Nat)} {ks : List Nat} {w : ParallelWalk}

/-- The other streams drive other engines. -/
theorem inst_ne (h : WalkInv job p₀ g bs ks w) (hks : ks.Nodup) {l₁ l₂ : List BlockStream} {st st' : BlockStream}
    (hsplit : w.streams = l₁ ++ st :: l₂) (hst' : st' ∈ l₁ ∨ st' ∈ l₂) : st'.inst ≠ st.inst := by
  have hperm : w.streams.Perm (st :: (l₁ ++ l₂)) := hsplit ▸ List.perm_middle
  have hnodup : ((st :: (l₁ ++ l₂)).map (·.inst)).Nodup := (hperm.map _).nodup_iff.mp (h.driven ▸ hks)
  obtain ⟨hfresh, -⟩ := List.nodup_cons.mp hnodup
  exact fun heq => hfresh (List.mem_map.mpr ⟨st', List.mem_append.mpr hst', heq⟩)

/-- A stream replaced by one on the same engine: the streams drive the same engines. -/
theorem driven_replace (h : WalkInv job p₀ g bs ks w) {l₁ l₂ : List BlockStream} {st st' : BlockStream}
    (hsplit : w.streams = l₁ ++ st :: l₂) (hinst : st'.inst = st.inst) :
    (l₁ ++ st' :: l₂).map (·.inst) = ks := by
  rw [← h.driven, hsplit]
  simp [hinst]

/-- An access of a stream keeps the invariant. -/
theorem afterAccess (h : WalkInv job p₀ g bs ks w) (hks : ks.Nodup) {l₁ l₂ : List BlockStream} {st : BlockStream}
    (hsplit : w.streams = l₁ ++ st :: l₂) {q : BusRequest} {rest : List BusRequest} (htodo : st.todo = q :: rest)
    {p : Platform} (hp : w.platform.accessInst st.inst q = .next p) :
    WalkInv job p₀ g bs ks ⟨p, w.output, l₁ ++ { st with todo := rest } :: l₂⟩ := by
  have hmem : st ∈ w.streams := hsplit ▸ mem_append_cons.mpr (.inr rfl)
  obtain ⟨i, hi⟩ := h.ready st hmem
  obtain ⟨p', i', hp', hwf, hothers, hready⟩ := hi.access h.wf htodo
  cases hp.symm.trans hp'
  refine ⟨hwf, h.driven_replace hsplit rfl, fun j hj => ?others, fun st' hst' => ?ready, ?painted⟩
  case others =>
    have hne : j ≠ st.inst := by
      rintro rfl
      exact hj (h.driven ▸ List.mem_map_of_mem hmem)
    exact (hothers j hne).trans (h.others j hj)
  case ready =>
    rcases mem_append_cons.mp hst' with hst' | rfl
    · obtain ⟨i₂, hi₂⟩ := h.ready st' (hsplit ▸ mem_append_cons.mpr (.inl hst'))
      exact ⟨i₂, hi₂.of_sameEngine (hothers _ (h.inst_ne hks hsplit hst'))⟩
    · exact ⟨i', hready⟩
  case painted =>
    obtain ⟨done, hdone, hpainted⟩ := h.painted
    refine ⟨done, fun b => (hdone b).trans ?_, hpainted⟩
    rw [hsplit, exists_mem_append_cons, exists_mem_append_cons]

/-- The write-back of a stream's block keeps the invariant. -/
theorem afterWriteBack (h : WalkInv job p₀ g bs ks w) {l₁ l₂ : List BlockStream} {st : BlockStream}
    (hsplit : w.streams = l₁ ++ st :: l₂) {b : Nat × Nat} {bs' : List (Nat × Nat)} (hblocks : st.blocks = b :: bs') :
    WalkInv job p₀ g bs ks ⟨w.platform, job.writeBlock b w.output,
      l₁ ++ { st with blocks := bs', todo := job.nextRequests bs' } :: l₂⟩ := by
  refine ⟨h.wf, h.driven_replace hsplit rfl, h.others, fun st' hst' => ?ready, ?painted⟩
  case ready =>
    rcases mem_append_cons.mp hst' with hst' | rfl
    · exact h.ready st' (hsplit ▸ mem_append_cons.mpr (.inl hst'))
    · obtain ⟨i, hi⟩ := h.ready st (hsplit ▸ mem_append_cons.mpr (.inr rfl))
      exact ⟨i, StreamReady.atStart job bs' hi.found hi.idle⟩
  case painted =>
    obtain ⟨done, hdone, hpainted⟩ := h.painted
    refine ⟨b :: done, fun b' => (hdone b').trans ?_, ?_⟩
    · rw [hsplit, exists_mem_append_cons, exists_mem_append_cons, hblocks]
      simp only [List.mem_cons, or_assoc, or_left_comm]
    · exact (hpainted.trans (painted_writeBlock job b hpainted.wf)).congr fun x y => by
        rw [List.mem_cons, or_comm]

/-- A turn keeps the invariant, and a turn of a stream with a block left leaves less work. -/
theorem turn (h : WalkInv job p₀ g bs ks w) (hks : ks.Nodup) (n : Nat) :
    ∃ w', takeTurn job n w = .next w' ∧ WalkInv job p₀ g bs ks w' ∧
      ∀ st, w.streams[n]? = some st → st.blocks ≠ [] → w'.work < w.work := by
  rcases takeTurn_cases job n w with ⟨hnone, hturn⟩ | ⟨st, q, rest, p, hn, htodo, hp, hturn⟩ | ⟨st, hn, htodo, hturn⟩
  · exact ⟨w, hturn, h, fun st hst => by rw [hnone] at hst; cases hst⟩
  · obtain ⟨l₁, l₂, hsplit, hset⟩ := exists_split_of_getElem? hn
    rw [hset] at hturn
    refine ⟨_, hturn, h.afterAccess hks hsplit htodo hp, fun _ _ _ => work_lt_of_stream hsplit rfl ?_⟩
    simp [BlockStream.work, htodo]
  · cases hblocks : st.blocks with
    | nil =>
      rw [finishBlock, hblocks] at hturn
      refine ⟨w, hturn, h, fun st' hst' hne => ?_⟩
      cases hn.symm.trans hst'
      exact absurd hblocks hne
    | cons b bs' =>
      obtain ⟨l₁, l₂, hsplit, hset⟩ := exists_split_of_getElem? hn
      obtain ⟨i, hi⟩ := h.ready st (hsplit ▸ mem_append_cons.mpr (.inr rfl))
      simp only [finishBlock, hblocks, hi.lastThree htodo hblocks, hset] at hturn
      refine ⟨_, hturn, h.afterWriteBack hsplit hblocks, fun _ _ _ => work_lt_of_stream hsplit rfl ?_⟩
      have hle := length_nextRequests_le job bs'
      simp only [BlockStream.work, hblocks, List.length_cons]
      omega

/-- Every schedule keeps the invariant. -/
theorem turns (h : WalkInv job p₀ g bs ks w) (hks : ks.Nodup) (schedule : List Nat) :
    ∃ w', takeTurns job schedule w = .next w' ∧ WalkInv job p₀ g bs ks w' := by
  induction schedule generalizing w with
  | nil => exact ⟨w, rfl, h⟩
  | cons n ns ih =>
    obtain ⟨u, hu, hinv, -⟩ := h.turn hks n
    obtain ⟨w', hw', hinv'⟩ := ih hinv
    exact ⟨w', by rw [takeTurns, hu, andThen_next, hw'], hinv'⟩

/-- Some schedule finishes, by induction on the work left: a walk that is not finished has a stream with a block. -/
theorem exists_finishing (h : WalkInv job p₀ g bs ks w) (hks : ks.Nodup) :
    ∃ schedule w', takeTurns job schedule w = .next w' ∧ w'.finished = true := by
  induction hwork : w.work using Nat.strong_induction_on generalizing w with
  | _ k ih =>
    by_cases hfin : w.finished = true
    · exact ⟨[], w, rfl, hfin⟩
    · obtain ⟨st, hst, hne⟩ : ∃ st ∈ w.streams, st.blocks ≠ [] := by
        simpa [ParallelWalk.finished] using hfin
      obtain ⟨n, hn⟩ := List.mem_iff_getElem?.mp hst
      obtain ⟨u, hu, hinv, hless⟩ := h.turn hks n
      obtain ⟨ns, w', hw', hfin'⟩ := ih u.work (hwork ▸ hless st hn hne) hinv rfl
      exact ⟨n :: ns, w', by rw [takeTurns, hu, andThen_next, hw'], hfin'⟩

end WalkInv

/-- Two grids painted alike are the same grid. -/
theorem Painted.unique {hit : Nat → Nat → Prop} {v : Nat → Nat → Pixel} {g o o' : Grid} (h : Painted hit v g o)
    (h' : Painted hit v g o') : o = o' := by
  refine Grid.eq_of_get o o' h.wf h'.wf (h.width.trans h'.width.symm) (h.height.trans h'.height.symm) fun x y => ?_
  by_cases hhit : hit x y
  · by_cases hin : g.inside x y = true
    · rw [h.get x y hhit hin, h'.get x y hhit hin]
    · rw [Grid.get, Grid.get, h.inside, h'.inside, if_neg hin, if_neg hin]
  · rw [h.keep x y hhit, h'.keep x y hhit]

/-- A finished walk has put in every block, so its output is the grid painted with all of them. -/
theorem WalkInv.output_of_finished {job : WalkJob} {p₀ : Platform} {g T : Grid} {bs : List (Nat × Nat)} {ks : List Nat}
    {w : ParallelWalk} (h : WalkInv job p₀ g bs ks w) (hfin : w.finished = true)
    (hT : Painted (fun x y => job.blockAt x y ∈ bs) job.pixel g T) : w.output = T := by
  obtain ⟨done, hdone, hpainted⟩ := h.painted
  have hempty : ∀ st ∈ w.streams, st.blocks = [] := by simpa [ParallelWalk.finished] using hfin
  have hall : ∀ b, b ∈ done ↔ b ∈ bs := by
    intro b
    rw [hdone b]
    refine ⟨.inl, ?_⟩
    rintro (hb | ⟨st, hst, hb⟩)
    · exact hb
    · rw [hempty st hst] at hb
      cases hb
  exact (hpainted.congr fun x y => hall _).unique hT

/-! #### The deal at the start -/

/-- The duty of R118 and R48: engines of their own, which exist and are idle, and every block dealt once. -/
theorem deal_of_duty {b : RowBound} {width height : Nat} {p : Platform} {deal : BlockDeal}
    (h : dealKeepsDuty b width height p deal = true) :
    (deal.map Prod.fst).Nodup ∧ (∀ d ∈ deal, ∃ i, p.insts[d.1]? = some i ∧ i.engine.pending = []) ∧
      (deal.flatMap Prod.snd).Perm (walkOrder b width height) := by
  simp only [dealKeepsDuty, Bool.and_eq_true, decide_eq_true_eq, List.all_eq_true, List.isPerm_iff] at h
  obtain ⟨⟨hnodup, hidle⟩, hperm⟩ := h
  refine ⟨hnodup, fun d hd => ?_, hperm⟩
  have hfound := hidle d hd
  cases hi : p.insts[d.1]? with
  | none => simp [hi] at hfound
  | some i => exact ⟨i, rfl, by simpa [hi] using hfound⟩

/-- The walk of a deal that keeps the duty meets the invariant before its first turn. -/
theorem walkInv_start (job : WalkJob) {b : RowBound} {width height : Nat} {p : Platform} {deal : BlockDeal} {g : Grid}
    (hwf : p.wf = true) (hg : g.wf = true) (hduty : dealKeepsDuty b width height p deal = true) :
    WalkInv job p g (walkOrder b width height) (deal.map Prod.fst) ⟨p, g, startStreams job deal⟩ := by
  obtain ⟨-, hidle, hperm⟩ := deal_of_duty hduty
  refine ⟨hwf, by simp [startStreams], fun _ _ => rfl, fun st hst => ?ready, [], fun b => ?dealt, ?blank⟩
  case ready =>
    obtain ⟨d, hd, rfl⟩ := List.mem_map.mp hst
    obtain ⟨i, hi, hpending⟩ := hidle d hd
    exact ⟨i, StreamReady.atStart job d.2 hi hpending⟩
  case dealt =>
    rw [← hperm.mem_iff]
    simp [startStreams]
  case blank => exact (Painted.refl job.pixel hg).congr fun x y => by simp

/-- Under the duty every schedule goes on, touches no other engine and, once finished, holds the grid painted with all
the blocks; and some schedule finishes. -/
theorem takeTurns_of_duty (job : WalkJob) {b : RowBound} {width height : Nat} {p : Platform} {deal : BlockDeal}
    {g T : Grid} (hwf : p.wf = true) (hg : g.wf = true) (hduty : dealKeepsDuty b width height p deal = true)
    (hT : Painted (fun x y => job.blockAt x y ∈ walkOrder b width height) job.pixel g T) :
    (∀ schedule, ∃ w : ParallelWalk, takeTurns job schedule ⟨p, g, startStreams job deal⟩ = .next w ∧
      (w.finished = true → w.output = T) ∧ ∀ j, j ∉ deal.map Prod.fst → w.platform.insts[j]? = p.insts[j]?) ∧
    ∃ (schedule : List Nat) (w : ParallelWalk),
      takeTurns job schedule ⟨p, g, startStreams job deal⟩ = .next w ∧ w.finished = true := by
  have hstart := walkInv_start job hwf hg hduty
  obtain ⟨hnodup, -, -⟩ := deal_of_duty hduty
  refine ⟨fun schedule => ?_, hstart.exists_finishing hnodup⟩
  obtain ⟨w, hw, hinv⟩ := hstart.turns hnodup schedule
  exact ⟨w, hw, fun hfin => hinv.output_of_finished hfin hT, hinv.others⟩

/-- R104: a secret that fits is merged by the turns of the schedule. -/
theorem mergeParallel_of_fits {C S : Grid} (p : Platform) (deal : BlockDeal) (schedule : List Nat)
    (h : S.width ≤ C.width ∧ S.height ≤ C.height) :
    mergeParallel C S p deal schedule =
      .ok (takeTurns (.merge C S) schedule ⟨p, C, startStreams (.merge C S) deal⟩) :=
  if_pos h

/-- Settles O60: the sequential walk and a finished parallel walk paint the same blocks with the same pixels. -/
theorem parallelStreamsAgreeWithSequentialWalk : Obligations.ParallelStreamsAgreeWithSequentialWalk := by
  unfold Obligations.ParallelStreamsAgreeWithSequentialWalk
  refine fun params p deal s hwf => ⟨fun C S hC hwidth hheight hduty => ?merge, fun T hduty => ?unmerge⟩
  case merge =>
    obtain ⟨t, ht⟩ := mergeWalk_next C S (walkOrder params.rowBound C.width C.height) C s
    have hpainted := painted_foldl_putStego C S (walkOrder params.rowBound C.width C.height) hC
    have hturns := takeTurns_of_duty (.merge C S) hwf hC hduty hpainted
    simp only [mergeParallel_of_fits p deal _ ⟨hwidth, hheight⟩, Except.ok.injEq]
    exact ⟨_, t, (merge_of_fits params s ⟨hwidth, hheight⟩).trans (congrArg _ ht), hturns⟩
  case unmerge =>
    obtain ⟨t, ht⟩ := unmergeWalk_next T (walkOrder params.rowBound T.width T.height)
      (Grid.blank T.width T.height params.background) s
    have hblank := Grid.blank_wf T.width T.height params.background
    have hpainted := painted_foldl_recovered T (walkOrder params.rowBound T.width T.height) hblank
    exact ⟨_, t, ht, takeTurns_of_duty (.unmerge T) hwf hblank hduty hpainted⟩

end Sys2Proof.Machine
